-- ==== Sys2Proof/Word.lean ====
section
/-! DEFINITION. The two bit-vector types of the model (00_scope.md rule R7): a byte of the ByteStream and a
two-byte field of an encoded instruction. -/

namespace Sys2Proof

/-- A byte: an 8-bit value, bit 0 the least significant bit (R7). -/
abbrev Byte := BitVec 8

/-- A raw two-byte field of an instruction: a 16-bit displacement, a direct address or a word immediate, before
rule R7's `s16` or `u16le` reads a number from it. -/
abbrev Word := BitVec 16

end Sys2Proof
end

