-- ==== Sys2Proof/Syntax.lean ====
section
/-! DEFINITION. The syntax of the seven MOV encoding variants: one constructor of `Instr` for each row of
spec/opcode_table.json, with every bit an encoding carries kept as an operand, the ignored ones too. -/

namespace Sys2Proof

/-- `OpcodeVariant`, in the enumeration order of R16, which is the classifier's priority order. -/
inductive OpcodeVariant where
  | RegMemToFromReg
  | ImmToRegMem
  | ImmToReg
  | MemToAcc
  | AccToMem
  | RegMemToSeg
  | SegToRegMem
deriving DecidableEq, Repr

/-- One row of the classifier's pattern table (R41): a lead byte `op` matches when `op & mask = expected`. -/
structure PatternRow where
  variant  : OpcodeVariant
  mask     : Byte
  expected : Byte
deriving DecidableEq, Repr

/-- The 16 register names of R70. They are constants that a decoded operand names; the block holds no register
contents (R20). -/
inductive RegName where
  | al | cl | dl | bl | ah | ch | dh | bh
  | ax | cx | dx | bx | sp | bp | si | di
deriving DecidableEq, Repr

/-- The eight base expressions of R72, in the order of their rm values. -/
inductive BaseExpr where
  | bxSi | bxDi | bpSi | bpDi | si | di | bp | bx
deriving DecidableEq, Repr

/-- The width tag of an immediate (R18). -/
inductive WidthTag where
  | byte
  | word
deriving DecidableEq, Repr

/-- The mod and rm fields of a ModRM byte with the displacement or address bytes they call for (R47, R49). The mod field
is the constructor. The base expression of a displacement form is its rm field. -/
inductive RmForm where
  /-- mod=3: register-direct, `i` the rm field (R74). -/
  | register (i : BitVec 3)
  /-- mod=0, rm≠6: register-indirect (R75). `baseOnly .bp` encodes nothing, and `WellFormed` refuses it. -/
  | baseOnly (b : BaseExpr)
  /-- mod=0, rm=6: the direct address (R76). -/
  | direct (a : Word)
  /-- mod=1: an 8-bit displacement (R77). -/
  | disp8 (b : BaseExpr) (d : Byte)
  /-- mod=2: a 16-bit displacement (R78). -/
  | disp16 (b : BaseExpr) (d : Word)
deriving DecidableEq, Repr

/-- The data bytes of an immediate, one for w=0 and two for w=1 (R79). The w bit is the constructor. -/
inductive ImmData where
  | byte (b : Byte)
  | word (v : Word)
deriving DecidableEq, Repr

/-- An instruction: the seven rows of spec/opcode_table.json. -/
inductive Instr where
  /-- MOV r/m, reg and MOV reg, r/m, lead byte `100010dw` (R90). -/
  | regMemToFromReg (d w : Bool) (reg : BitVec 3) (rm : RmForm)
  /-- MOV r/m, imm, lead byte `1100011w` (R100). `reg` is the ignored reg field (R101). -/
  | immToRegMem (reg : BitVec 3) (rm : RmForm) (imm : ImmData)
  /-- MOV reg, imm, lead byte `1011wrrr` (R110). -/
  | immToReg (reg : BitVec 3) (imm : ImmData)
  /-- MOV acc, [addr], lead byte `1010000w` (R120). -/
  | memToAcc (w : Bool) (addr : Word)
  /-- MOV [addr], acc, lead byte `1010001w` (R121). -/
  | accToMem (w : Bool) (addr : Word)
  /-- MOV sreg, r/m, lead byte `10001110`: the lead byte alone (R130). -/
  | regMemToSeg
  /-- MOV r/m, sreg, lead byte `10001100`: the lead byte alone (R131). -/
  | segToRegMem
deriving DecidableEq, Repr

end Sys2Proof
end

