-- ==== Sys2Proof/WellFormed.lean ====
section
/-! DEFINITION. Which terms of `Instr` stand for an encoding. The types rule out every other ill-formed operand; one
check is left, on the r/m operand. -/

namespace Sys2Proof

/-- With mod=0, rm=6 selects the direct address and "never reaches this branch" (R72, R76): the base-only form with
base `bp` has no encoding. -/
def RmForm.wellFormed : RmForm → Bool
  | .baseOnly b => b != .bp
  | .register _ | .direct _ | .disp8 _ _ | .disp16 _ _ => true

/-- An instruction is well formed when its r/m operand, if it has one, is. -/
def Instr.wellFormed : Instr → Bool
  | .regMemToFromReg _ _ _ rm => rm.wellFormed
  | .immToRegMem _ rm _ => rm.wellFormed
  | .immToReg _ _ | .memToAcc _ _ | .accToMem _ _ | .regMemToSeg | .segToRegMem => true

end Sys2Proof
end

