-- ==== Sys2Proof/Decode.lean ====
section
/-! DEFINITION. The Opcode Classifier, the Field Extractor, the byte-level halves of the Operand Resolver and of the
Immediate Reader, and the decoder they make (30_encoding.md, 40_decode_loop.md R61, 41_operands.md R73 and R79); then the
encoder, written from the byte layouts of R47. The decoder is total: it answers an instruction and the offset one past
its last byte, or one of the two decode errors. -/

namespace Sys2Proof

/-! ## The opcode classifier -/

/-- The pattern table of R41, in priority order. The mask and expected values are the spec's own supply from general
knowledge (D1, G1; UNVERIFIED, assumption log 7). -/
def patternTable : List PatternRow :=
  [ { variant := .RegMemToFromReg, mask := 0xFC, expected := 0x88 },
    { variant := .ImmToRegMem,     mask := 0xFE, expected := 0xC6 },
    { variant := .ImmToReg,        mask := 0xF0, expected := 0xB0 },
    { variant := .MemToAcc,        mask := 0xFE, expected := 0xA0 },
    { variant := .AccToMem,        mask := 0xFE, expected := 0xA2 },
    { variant := .RegMemToSeg,     mask := 0xFF, expected := 0x8E },
    { variant := .SegToRegMem,     mask := 0xFF, expected := 0x8C } ]

/-- The classifier's test of one row (R42): `(byte & mask) == expected`. -/
def PatternRow.matchesByte (r : PatternRow) (op : Byte) : Bool :=
  (op &&& r.mask) == r.expected

/-- The first row of a table that a lead byte matches, as its variant. -/
def firstMatch (table : List PatternRow) (op : Byte) : Option OpcodeVariant :=
  (table.find? (fun r => r.matchesByte op)).map (fun r => r.variant)

/-- `Classify` (R42): the variant of the first matching row; none where R42 raises UnsupportedOpcode. -/
def classify (op : Byte) : Option OpcodeVariant :=
  firstMatch patternTable op

/-! ## The field extractor (R45) -/

/-- `d(op) = op[1]`. -/
def dBit (op : Byte) : Bool := op.getLsbD 1

/-- `w(op) = op[0]`. -/
def wBit (op : Byte) : Bool := op.getLsbD 0

/-- `wImm(op) = op[3]`, for ImmToReg only. -/
def wImmBit (op : Byte) : Bool := op.getLsbD 3

/-- `regImm(op) = op[2:0]`, for ImmToReg only. -/
def regImmField (op : Byte) : BitVec 3 := op.extractLsb' 0 3

/-- `mod(m) = m[7:6]`. -/
def modField (m : Byte) : BitVec 2 := m.extractLsb' 6 2

/-- `reg(m) = m[5:3]`. -/
def regField (m : Byte) : BitVec 3 := m.extractLsb' 3 3

/-- `rm(m) = m[2:0]`. -/
def rmField (m : Byte) : BitVec 3 := m.extractLsb' 0 3

/-! ## Byte order and lengths -/

/-- `u16le(lo, hi) = lo | (hi << 8)`, in unbounded arithmetic (R7). -/
def u16le (lo hi : Byte) : Nat := lo.toNat ||| (hi.toNat <<< 8)

/-- The two-byte field whose first byte is `lo` and second `hi`: every such field is little-endian (R32; for the direct
address and the accumulator address that order is the spec's decision D3; UNVERIFIED,
assumption log 9). -/
def wordLe (lo hi : Byte) : Word := BitVec.ofNat 16 (u16le lo hi)

/-- The byte of a two-byte field at the lower offset. -/
def Word.lo (v : Word) : Byte := v.extractLsb' 0 8

/-- The byte of a two-byte field at the higher offset. -/
def Word.hi (v : Word) : Byte := v.extractLsb' 8 8

/-- `dispLen(mod, rm)` (R49). -/
def dispLen (mod : BitVec 2) (rm : BitVec 3) : Nat :=
  if mod = 0#2 then (if rm = 6#3 then 2 else 0)
  else if mod = 1#2 then 1
  else if mod = 2#2 then 2
  else 0

/-- The base expression that an rm value selects (R72). -/
def baseOfRm (rm : BitVec 3) : BaseExpr :=
  if rm = 0#3 then .bxSi
  else if rm = 1#3 then .bxDi
  else if rm = 2#3 then .bpSi
  else if rm = 3#3 then .bpDi
  else if rm = 4#3 then .si
  else if rm = 5#3 then .di
  else if rm = 6#3 then .bp
  else .bx

/-- The rm value that selects a base expression (R72, read backwards). -/
def BaseExpr.rmValue : BaseExpr → BitVec 3
  | .bxSi => 0
  | .bxDi => 1
  | .bpSi => 2
  | .bpDi => 3
  | .si => 4
  | .di => 5
  | .bp => 6
  | .bx => 7

/-- The mod field of an r/m form (R73). -/
def RmForm.modValue : RmForm → BitVec 2
  | .register _ => 3
  | .baseOnly _ => 0
  | .direct _ => 0
  | .disp8 _ _ => 1
  | .disp16 _ _ => 2

/-- The rm field of an r/m form (R73). -/
def RmForm.rmValue : RmForm → BitVec 3
  | .register i => i
  | .baseOnly b => b.rmValue
  | .direct _ => 6
  | .disp8 b _ => b.rmValue
  | .disp16 b _ => b.rmValue

/-- The w bit that an immediate's data bytes were read with (R79). -/
def ImmData.wBit : ImmData → Bool
  | .byte _ => false
  | .word _ => true

/-- How many data bytes an immediate has (R79). -/
def ImmData.length (imm : ImmData) : Nat := if imm.wBit then 2 else 1

/-- `len` (R48), of an instruction whose fields are decoded. For the segment forms it is the one byte they consume (R47);
they have no committed length. -/
def Instr.length : Instr → Nat
  | .regMemToFromReg _ _ _ rm => 2 + dispLen rm.modValue rm.rmValue
  | .immToRegMem _ rm imm => 2 + dispLen rm.modValue rm.rmValue + imm.length
  | .immToReg _ imm => 1 + imm.length
  | .memToAcc _ _ => 3
  | .accToMem _ _ => 3
  | .regMemToSeg => 1
  | .segToRegMem => 1

/-- The variant an instruction is of (R16). -/
def Instr.variant : Instr → OpcodeVariant
  | .regMemToFromReg _ _ _ _ => .RegMemToFromReg
  | .immToRegMem _ _ _ => .ImmToRegMem
  | .immToReg _ _ => .ImmToReg
  | .memToAcc _ _ => .MemToAcc
  | .accToMem _ _ => .AccToMem
  | .regMemToSeg => .RegMemToSeg
  | .segToRegMem => .SegToRegMem

/-! ## The decoder -/

/-- Why decoding raises (60_exceptions.md R141, R142). UnhandledVariant is not here: the segment forms decode to
instructions, and raising it is their meaning (R130, R131). -/
inductive DecodeError where
  /-- UnsupportedOpcode: the lead byte `byte` matches no row (R42). -/
  | unsupportedOpcode (byte : Byte)
  /-- TruncatedInstruction: `need` is the offset of the first byte that is not in the stream (R30). -/
  | truncated (need : Nat)
deriving DecidableEq, Repr

/-- What the decoder reads through: `StreamRead` (R30) of a machine, or of a list of bytes. -/
abbrev ByteReader := Nat → Except DecodeError Byte

/-- Two bytes at offsets p and p+1, in that order, as a little-endian field, and the offset after them (R31, R32). -/
def readWordLe (read : ByteReader) (p : Nat) : Except DecodeError (Word × Nat) := do
  let lo ← read p
  let hi ← read (p + 1)
  return (wordLe lo hi, p + 2)

/-- The Operand Resolver's reads (R73): the r/m form, and the offset after the displacement or address bytes. -/
def readRmForm (read : ByteReader) (mod : BitVec 2) (rm : BitVec 3) (p : Nat) :
    Except DecodeError (RmForm × Nat) :=
  if mod = 3#2 then return (.register rm, p)
  else if mod = 0#2 then
    if rm = 6#3 then do
      let (a, p) ← readWordLe read p
      return (.direct a, p)
    else return (.baseOnly (baseOfRm rm), p)
  else if mod = 1#2 then do
    let b ← read p
    return (.disp8 (baseOfRm rm) b, p + 1)
  else do
    let (d, p) ← readWordLe read p
    return (.disp16 (baseOfRm rm) d, p)

/-- The Immediate Reader's reads (R79): one data byte for w=0, two for w=1, and the offset after them. -/
def readImmData (read : ByteReader) (w : Bool) (p : Nat) : Except DecodeError (ImmData × Nat) :=
  if w then do
    let (v, p) ← readWordLe read p
    return (.word v, p)
  else do
    let b ← read p
    return (.byte b, p + 1)

/-- `DecodeRMR` (R90), from the offset after the lead byte `op`. -/
def decodeRegMemToFromReg (read : ByteReader) (op : Byte) (p : Nat) : Except DecodeError (Instr × Nat) := do
  let m ← read p
  let (rm, p) ← readRmForm read (modField m) (rmField m) (p + 1)
  return (.regMemToFromReg (dBit op) (wBit op) (regField m) rm, p)

/-- `DecodeIRM` (R100): the displacement bytes first, then the data bytes (R103). -/
def decodeImmToRegMem (read : ByteReader) (op : Byte) (p : Nat) : Except DecodeError (Instr × Nat) := do
  let m ← read p
  let (rm, p) ← readRmForm read (modField m) (rmField m) (p + 1)
  let (imm, p) ← readImmData read (wBit op) p
  return (.immToRegMem (regField m) rm imm, p)

/-- `DecodeIR` (R110). -/
def decodeImmToReg (read : ByteReader) (op : Byte) (p : Nat) : Except DecodeError (Instr × Nat) := do
  let (imm, p) ← readImmData read (wImmBit op) p
  return (.immToReg (regImmField op) imm, p)

/-- `DecodeMA` (R120): two address bytes, whatever w is. -/
def decodeMemToAcc (read : ByteReader) (op : Byte) (p : Nat) : Except DecodeError (Instr × Nat) := do
  let (a, p) ← readWordLe read p
  return (.memToAcc (wBit op) a, p)

/-- `DecodeAM` (R121): two address bytes, whatever w is. -/
def decodeAccToMem (read : ByteReader) (op : Byte) (p : Nat) : Except DecodeError (Instr × Nat) := do
  let (a, p) ← readWordLe read p
  return (.accToMem (wBit op) a, p)

/-- `DecodeOne` (R61): the lead byte at `start`, its class, and the class's procedure. The segment forms read no byte
after the lead byte (R130, R131). -/
def decodeOne (read : ByteReader) (start : Nat) : Except DecodeError (Instr × Nat) := do
  let op ← read start
  match classify op with
  | none => throw (.unsupportedOpcode op)
  | some .RegMemToFromReg => decodeRegMemToFromReg read op (start + 1)
  | some .ImmToRegMem => decodeImmToRegMem read op (start + 1)
  | some .ImmToReg => decodeImmToReg read op (start + 1)
  | some .MemToAcc => decodeMemToAcc read op (start + 1)
  | some .AccToMem => decodeAccToMem read op (start + 1)
  | some .RegMemToSeg => return (.regMemToSeg, start + 1)
  | some .SegToRegMem => return (.segToRegMem, start + 1)

/-- A list of bytes as something to read through: R30 with `L` the list's length. -/
def listReader (bytes : List Byte) : ByteReader := fun k =>
  match bytes[k]? with
  | some b => .ok b
  | none => .error (.truncated k)

/-- Decode the instruction at the head of a list of bytes. -/
def decodeBytes (bytes : List Byte) : Except DecodeError (Instr × Nat) :=
  decodeOne (listReader bytes) 0

/-! ## The encoder -/

/-- The ModRM byte `mod reg rm` (R47). -/
def modRmByte (reg : BitVec 3) (rm : RmForm) : Byte := rm.modValue ++ reg ++ rm.rmValue

/-- A two-byte field as the stream holds it, low byte first (R32). -/
def wordBytes (v : Word) : List Byte := [Word.lo v, Word.hi v]

/-- The displacement or address bytes of an r/m form (R47, R49). -/
def RmForm.bytes : RmForm → List Byte
  | .register _ => []
  | .baseOnly _ => []
  | .direct a => wordBytes a
  | .disp8 _ d => [d]
  | .disp16 _ d => wordBytes d

/-- The data bytes of an immediate (R47). -/
def ImmData.bytes : ImmData → List Byte
  | .byte b => [b]
  | .word v => wordBytes v

/-- The bytes of an instruction, first byte first, from the layouts of R47. -/
def encode : Instr → List Byte
  | .regMemToFromReg d w reg rm =>
    (0b100010#6 ++ BitVec.ofBool d ++ BitVec.ofBool w : BitVec 8) :: modRmByte reg rm :: rm.bytes
  | .immToRegMem reg rm imm =>
    (0b1100011#7 ++ BitVec.ofBool imm.wBit : BitVec 8) :: modRmByte reg rm :: (rm.bytes ++ imm.bytes)
  | .immToReg reg imm => (0b1011#4 ++ BitVec.ofBool imm.wBit ++ reg : BitVec 8) :: imm.bytes
  | .memToAcc w a => (0b1010000#7 ++ BitVec.ofBool w : BitVec 8) :: wordBytes a
  | .accToMem w a => (0b1010001#7 ++ BitVec.ofBool w : BitVec 8) :: wordBytes a
  | .regMemToSeg => [0b10001110#8]
  | .segToRegMem => [0b10001100#8]

/-! ## The opcode table's words -/

/-- The most bytes an instruction has (R48). -/
def maxInstrBytes : Nat := 6

/-- The low `nbits` bits of `w` as `maxInstrBytes` bytes, bit 0 in the first byte: an opcode-table word with every bit
above it 0. -/
def tableWordBytes (nbits w : Nat) : List Byte :=
  (List.range maxInstrBytes).map (fun j => BitVec.ofNat 8 ((w % 2 ^ nbits) >>> (8 * j)))

/-- The instruction that the decoder reads from an opcode-table word, or none where it raises. -/
def decodeTableWord (nbits w : Nat) : Option Instr :=
  match decodeBytes (tableWordBytes nbits w) with
  | .ok (i, _) => some i
  | .error _ => none

end Sys2Proof
end

