-- ==== Sys2Proof/Config.lean ====
section
/-! DEFINITION. The block's parameters (00_scope.md rule R6). The two that the spec leaves OPEN are constants with no
body; the one it fixes with a default is data of a `Params` record, which `State` carries so that both of its values
can be run (DESIGN CHOICE, assumption log 2). -/

namespace Sys2Proof.Config

/-- `SEG_NOTICE` (R6, R14, D8): the text of the placeholder notice of the segment forms. OPEN in the spec, so it has no
body here: a free value (UNVERIFIED, assumption log 3). -/
opaque segNotice : String

/-- `OFFSET_BITS` (R6, D11): the width of the cursor register in a hardware build. OPEN in the spec, so it has no body
here: a free value. The model's cursor is an unbounded natural (UNVERIFIED, assumption log 4). -/
opaque offsetBits : Nat

/-- The parameters that a run fixes and that a rule of the spec depends on (R6, R161). -/
structure Params where
  /-- `ACC_HONORS_W` (R6, R122): whether the accumulator forms with w=0 name `al` instead of `ax`. -/
  accHonorsW : Bool
deriving DecidableEq, Repr

/-- The value R6 fixes for the parameters: `ACC_HONORS_W = false` (§4.5 of the source, D5; UNVERIFIED,
assumption log 11). -/
def Params.default : Params := { accHonorsW := false }

end Sys2Proof.Config
end

