-- ==== Sys2Proof/Machine/State.lean ====
section
/-! DEFINITION. The machine's state (10_state.md), its value types, its state after reset, and the reasons a step may
stop outside it. The seven persistent elements of R25 are here under the spec's own names, and so are the step's
parameters `B`, `L` and `ACC_HONORS_W`, since the interface's step takes a state alone (DESIGN CHOICE,
assumption log 2). -/

namespace Sys2Proof.Machine

/-! ## Value types -/

/-- The three forms of a Memory operand (R18). It is text about 8086 memory; the block never accesses it (R36). -/
inductive MemExpr where
  /-- `Memory(BaseOnly b)`. -/
  | baseOnly (b : BaseExpr)
  /-- `Memory(BaseDisp b, disp)`, disp a signed 16-bit value, possibly 0. -/
  | baseDisp (b : BaseExpr) (disp : Int)
  /-- `Memory(Direct a)`, a in 0..65535. -/
  | direct (a : Nat)
deriving DecidableEq, Repr

/-- `Operand` (R18). -/
inductive Operand where
  | register (name : RegName)
  | memory (m : MemExpr)
  /-- `value` is a signed 16-bit value. -/
  | immediate (value : Int) (tag : WidthTag)
deriving DecidableEq, Repr

/-- `InstructionFields` (R17). A field that the variant does not carry is absent (R46). -/
structure Fields where
  d   : Option Bool := none
  w   : Option Bool := none
  mod : Option (BitVec 2) := none
  reg : Option (BitVec 3) := none
  rm  : Option (BitVec 3) := none
deriving DecidableEq, Repr

/-- The decoded-instruction record `Decoded` (R19). `leadAt` is its `at`, the lead byte's offset. The record is the spec's
own form of the block's output (D10; UNVERIFIED, assumption log 18). -/
structure Decoded where
  leadAt  : Nat
  len     : Nat
  variant : OpcodeVariant
  fields  : Fields
  dst     : Operand
  src     : Operand
deriving DecidableEq, Repr

/-- The kinds of error (R12). -/
inductive ErrorKind where
  | unsupportedOpcode
  | truncatedInstruction
deriving DecidableEq, Repr

/-- Why a run ended (R12, R140). -/
inductive Reason where
  | exhausted
  | unhandledVariant
  | error (kind : ErrorKind)
deriving DecidableEq, Repr

/-- The decoder FSM (R12). `decoding` holds only inside one step (D13; UNVERIFIED, assumption log 15). -/
inductive Fsm where
  | scanning
  | decoding
  | terminated (reason : Reason)
deriving DecidableEq, Repr

/-- The termination record (R15). `leadAt` is its `at`. Its fields are the spec's own decision (D9; UNVERIFIED, assumption
log 17). -/
structure TermInfo where
  reason : Reason
  leadAt : Nat
  byte   : Option Byte
  need   : Option Nat
deriving DecidableEq, Repr

/-- Bytes at offsets, in one canonical form (`Memory.wf`): offsets strictly rising, no entry equal to what an unlisted
offset reads as. -/
abbrev Memory := List Host.Cell

/-! ## State -/

/-- The state of the block with the parameters its step takes (R25). -/
structure State where
  /-- The ByteStream `B` (R10): its bytes at offsets `0..L-1`. The caller's; no step writes it. -/
  B      : Memory
  /-- `L`, the length of the ByteStream (R6, R10). The caller's; no step writes it. -/
  L      : Nat
  /-- The parameters of the run (R6, R22). The caller's; no step writes them. -/
  params : Config.Params
  /-- The cursor (R11): the offset of the next lead byte, in `0..L`. -/
  cur    : Nat
  /-- The FSM state (R12). -/
  st     : Fsm
  /-- The output lines (R13). -/
  out    : List String
  /-- The decoded-instruction records, one for each line (R13, R19). -/
  recs   : List Decoded
  /-- The notice register (R14). -/
  notice : Option OpcodeVariant
  /-- The termination record (R15). -/
  term   : Option TermInfo
deriving DecidableEq, Repr

/-- The machine right after reset (R160), over the empty ByteStream with the default parameters: the stream and the
parameters are the caller's, and reset leaves them as they are (R161; DESIGN CHOICE, assumption log 1). -/
def State.reset : State where
  B := []
  L := 0
  params := Config.Params.default
  cur := 0
  st := .scanning
  out := []
  recs := []
  notice := none
  term := none

/-! ## Stops -/

/-- Why a step answers a fault (DESIGN CHOICE, assumption log 14). The block's own errors are none of these: they are transitions to `Terminated` (R63). -/
inductive Fault where
  /-- `step`, in a state whose FSM is `Terminated`: "`Terminated(reason)` has no step" (R64). Safe: the spec gives no
  next state there. -/
  | terminated (reason : Reason)
  /-- `step`, in a state whose FSM is `Decoding`: a step is enabled only when `st = Scanning` (R60), and no observer
  between steps ever sees `Decoding` (R12). Safe: no step and no reset leads to such a state. -/
  | notBetweenSteps
deriving DecidableEq, Repr

/-- Why a step answers a refusal. -/
inductive Refusal where
  /-- `exec`, for an instruction that has no meaning yet; no arm answers it now. Safe: it proves nothing. -/
  | notModelled (mnemonic : String)
deriving DecidableEq, Repr

end Sys2Proof.Machine
end

