-- ==== Sys2Proof/Machine/Operands.lean ====
section
/-! DEFINITION. The operands that an instruction's fields stand for and their text (41_operands.md): the register-name
table, the value halves of the Operand Resolver and of the Immediate Reader, and the Instruction Formatter. -/

namespace Sys2Proof.Machine

/-! ## Values -/

/-- `sext_16(b)` (R7). -/
def sext16 (b : Byte) : Int := if b.toNat < 128 then b.toNat else (b.toNat : Int) - 256

/-- `s16(u)` (R7). -/
def s16 (u : Word) : Int := if u.toNat < 32768 then u.toNat else (u.toNat : Int) - 65536

/-! ## Operands -/

/-- `RegName(i, w)` (R70). The names are the spec's own supply (D2, G2; UNVERIFIED, assumption log 8). -/
def regName (i : BitVec 3) (w : Bool) : RegName :=
  if w then
    if i = 0#3 then .ax
    else if i = 1#3 then .cx
    else if i = 2#3 then .dx
    else if i = 3#3 then .bx
    else if i = 4#3 then .sp
    else if i = 5#3 then .bp
    else if i = 6#3 then .si
    else .di
  else
    if i = 0#3 then .al
    else if i = 1#3 then .cl
    else if i = 2#3 then .dl
    else if i = 3#3 then .bl
    else if i = 4#3 then .ah
    else if i = 5#3 then .ch
    else if i = 6#3 then .dh
    else .bh

/-- `AccName(w)` (R122). -/
def accName (params : Config.Params) (w : Bool) : RegName :=
  if params.accHonorsW then regName 0 w else .ax

/-- The operand that `Resolve` returns for an r/m form (R73 to R78). -/
def rmOperand (rm : RmForm) (w : Bool) : Operand :=
  match rm with
  | .register i => .register (regName i w)
  | .baseOnly b => .memory (.baseOnly b)
  | .direct a => .memory (.direct a.toNat)
  | .disp8 b d => .memory (.baseDisp b (sext16 d))
  | .disp16 b d => .memory (.baseDisp b (s16 d))

/-- The operand that `ReadImmediate` returns for an immediate's data (R79). -/
def immOperand : ImmData → Operand
  | .byte b => .immediate (sext16 b) .byte
  | .word v => .immediate (s16 v) .word

/-! ## Text -/

/-- The decimal digits of a natural, most significant first; `fuel` bounds their number. -/
def decDigits : Nat → Nat → List Char
  | 0, _ => []
  | fuel + 1, n => if n < 10 then [Nat.digitChar n] else decDigits fuel (n / 10) ++ [Nat.digitChar (n % 10)]

/-- `dec(n)` for n ≥ 0 (R80). -/
def decNat (n : Nat) : String := String.ofList (decDigits (n + 1) n)

/-- `dec(n)` (R80): decimal, a "-" sign for a negative value, no "+" sign and no leading zeros. Radix and
sign are the spec's own decision (D4; UNVERIFIED, assumption log 10). -/
def dec (n : Int) : String := if n < 0 then "-" ++ decNat n.natAbs else decNat n.natAbs

/-- The spelling of a register name (R70). -/
def regText : RegName → String
  | .al => "al" | .cl => "cl" | .dl => "dl" | .bl => "bl" | .ah => "ah" | .ch => "ch" | .dh => "dh" | .bh => "bh"
  | .ax => "ax" | .cx => "cx" | .dx => "dx" | .bx => "bx" | .sp => "sp" | .bp => "bp" | .si => "si" | .di => "di"

/-- The spelling of a base expression (R72). -/
def baseText : BaseExpr → String
  | .bxSi => "bx + si"
  | .bxDi => "bx + di"
  | .bpSi => "bp + si"
  | .bpDi => "bp + di"
  | .si => "si"
  | .di => "di"
  | .bp => "bp"
  | .bx => "bx"

/-- `Suffix(d)` (R81): nothing for 0, and sign and magnitude apart otherwise (R82). -/
def dispSuffix (d : Int) : String :=
  if d = 0 then "" else if 0 < d then " + " ++ dec d else " - " ++ dec (-d)

/-- The text of a Memory operand (R81). -/
def memText : MemExpr → String
  | .baseOnly b => "[" ++ baseText b ++ "]"
  | .direct a => "[" ++ dec a ++ "]"
  | .baseDisp b d => "[" ++ baseText b ++ dispSuffix d ++ "]"

/-- The width tag's word (R83). -/
def tagWord : WidthTag → String
  | .byte => "byte"
  | .word => "word"

/-- Whether a variant's immediate is rendered with its width tag (R86): by variant, not by destination. -/
def tagsImmediate : OpcodeVariant → Bool
  | .ImmToRegMem => true
  | .RegMemToFromReg | .ImmToReg | .MemToAcc | .AccToMem | .RegMemToSeg | .SegToRegMem => false

/-- `Text(op)` (R84), an immediate tagged or not (R83). -/
def operandText (tagged : Bool) : Operand → String
  | .register n => regText n
  | .memory m => memText m
  | .immediate v tag => if tagged then tagWord tag ++ " " ++ dec v else dec v

/-- `Render(rec)` (R85): a line without a terminator (D19; UNVERIFIED, assumption log 18). -/
def render (r : Decoded) : String :=
  "mov " ++ operandText (tagsImmediate r.variant) r.dst ++ ", " ++ operandText (tagsImmediate r.variant) r.src

end Sys2Proof.Machine
end

