-- ==== Sys2Proof/Machine/Ops.lean ====
section
/-! DEFINITION. The named operations over the machine's state: reading the ByteStream, fetching the instruction at the
cursor, committing an instruction (R62), raising a termination reason (R63, R145) and the only way out of one, reset
(R146, R160); and what the caller does before a run (R162). -/

namespace Sys2Proof.Machine

/-! ## Memory -/

/-- What an offset that memory does not list reads as. Within `0..L-1` it is a byte of value 0 that the caller supplied:
leaving zeros out is how the model writes a stream down (DESIGN CHOICE, assumption log 5). -/
def Memory.unlisted : Byte := 0

/-- The byte at an offset. -/
def Memory.read : Memory → Nat → Byte
  | [], _ => Memory.unlisted
  | (k, v) :: rest, a => if a = k then v else Memory.read rest a

/-- Put a byte at an offset, keeping the canonical form. No step writes memory (R10); this is the caller's. -/
def Memory.write : Memory → Nat → Byte → Memory
  | [], a, v => if v = Memory.unlisted then [] else [(a, v)]
  | (k, u) :: rest, a, v =>
    if a < k then (if v = Memory.unlisted then (k, u) :: rest else (a, v) :: (k, u) :: rest)
    else if a = k then (if v = Memory.unlisted then rest else (a, v) :: rest)
    else (k, u) :: Memory.write rest a v

/-- Put bytes at consecutive offsets. -/
def Memory.writeBytes : Memory → Nat → List Byte → Memory
  | m, _, [] => m
  | m, a, v :: vs => Memory.writeBytes (Memory.write m a v) (a + 1) vs

/-- The canonical form above an offset: offsets strictly rising from `lo`, no entry equal to `Memory.unlisted`. -/
def Memory.wfFrom : Nat → Memory → Bool
  | _, [] => true
  | lo, (k, v) :: rest => decide (lo ≤ k) && v != Memory.unlisted && Memory.wfFrom (k + 1) rest

/-- The canonical form of memory. -/
def Memory.wf (m : Memory) : Bool := Memory.wfFrom 0 m

/-! ## Reading the stream -/

/-- `StreamRead(k)` (R30), the only access to the ByteStream: `B[k]` when `k < L`, and TruncatedInstruction with
`need = k` otherwise. -/
def State.streamRead (s : State) : ByteReader := fun k =>
  if k < s.L then .ok (s.B.read k) else .error (.truncated k)

/-- The lead byte that a termination record names (R15): `B[cur]`, or none at the end of the stream. -/
def State.leadByte (s : State) : Option Byte := (s.streamRead s.cur).toOption

/-- The instruction at the cursor, with the offset after it (`DecodeOne(cur)`, R60). -/
def State.fetchInstr (s : State) : Except DecodeError (Instr × Nat) := decodeOne s.streamRead s.cur

/-! ## Inside a step -/

/-- The FSM while an instruction's bytes are consumed (R12). -/
def beginDecode (s : State) : State := { s with st := .decoding }

/-- Commit (R62): the record, its line and the cursor, together. The FSM returns to `Scanning` (R12). -/
def commit (r : Decoded) (s : State) : State :=
  { s with
    recs := s.recs ++ [r]
    out := s.out ++ [render r]
    cur := s.cur + r.len
    st := .scanning }

/-! ## Taking an exception, and leaving it -/

/-- Entry of a termination reason (R60, R63, R145): the FSM and the termination record, and nothing else. The cursor
stays at the lead byte (D6; UNVERIFIED, assumption log 12). -/
def terminate (reason : Reason) (need : Option Nat) (s : State) : State :=
  { s with
    st := .terminated reason
    term := some { reason := reason, leadAt := s.cur, byte := s.leadByte, need := need } }

/-- The end of the stream (R60). -/
def endOfStream (s : State) : State := terminate .exhausted none s

/-- Raise a decode error (R63): UnsupportedOpcode (R141), or TruncatedInstruction with the failing offset (R142).
Either ends the run (D12; UNVERIFIED, assumption log 16). -/
def raise (e : DecodeError) (s : State) : State :=
  match e with
  | .unsupportedOpcode _ => terminate (.error .unsupportedOpcode) none s
  | .truncated need => terminate (.error .truncatedInstruction) (some need) s

/-- Raise UnhandledVariant(v) (R63, R143): it also sets the notice register (R14). No byte
after the lead byte was read (D7; UNVERIFIED, assumption log 13). -/
def raiseUnhandled (v : OpcodeVariant) (s : State) : State :=
  { terminate .unhandledVariant none s with notice := some v }

/-- The `reset` input (R24, R160): every persistent element at its reset value. It is the only way out of `Terminated`
(R146). It leaves the ByteStream and the parameters as they are (R161). -/
def State.applyReset (s : State) : State :=
  { s with cur := 0, st := .scanning, out := [], recs := [], notice := none, term := none }

/-! ## What the outside reads and does -/

/-- The numeric code of a termination reason (R140, D9; UNVERIFIED, assumption log 17). -/
def Reason.code : Reason → Nat
  | .exhausted => 0
  | .error .unsupportedOpcode => 1
  | .error .truncatedInstruction => 2
  | .unhandledVariant => 3

/-- Whether a termination reason is an error (R140). UnhandledVariant is not one (R132). -/
def Reason.isError : Reason → Bool
  | .error _ => true
  | .exhausted | .unhandledVariant => false

/-- The notice's text (R14): the parameter `SEG_NOTICE`, shown when a segment form was reached. It is no element of
`out`. -/
def State.noticeText (s : State) : Option String := s.notice.map (fun _ => Config.segNotice)

/-- The caller makes a ByteStream resident and fixes its length and the parameters (R162, points 1 to 3). It is no part of a
step, and the caller does it before a run alone (R163, D18; UNVERIFIED, assumption log 20). -/
def State.supply (s : State) (bytes : List Byte) (params : Config.Params) : State :=
  { s with B := Memory.writeBytes [] 0 bytes, L := bytes.length, params := params }

/-- The start of a run over a stream: the caller supplies it, then resets the block (R162, R160). -/
def State.startOver (bytes : List Byte) (params : Config.Params) : State :=
  (State.reset.supply bytes params).applyReset

/-- The caller puts bytes into the stream from the cursor on, lengthening it where they pass its end, with the FSM
ready to step. -/
def State.placeAtCursor (s : State) (bytes : List Byte) : State :=
  { s with B := s.B.writeBytes s.cur bytes, L := max s.L (s.cur + bytes.length), st := .scanning }

end Sys2Proof.Machine
end

