-- ==== Sys2Proof/Machine/Accumulator.lean ====
section
/-! DEFINITION. The meanings of MOV memory to/from accumulator (45_mov_acc.md). -/

namespace Sys2Proof.Machine

/-- MemToAcc (R120). The accumulator's name depends on the parameter `ACC_HONORS_W` (R122). -/
def execMemToAcc (w : Bool) (addr : Word) (s : State) : Host.Outcome State Fault Refusal :=
  .next (commit
    { leadAt := s.cur
      len := (Instr.memToAcc w addr).length
      variant := .MemToAcc
      fields := { w := some w }
      dst := .register (accName s.params w)
      src := .memory (.direct addr.toNat) } s)

/-- AccToMem (R121). -/
def execAccToMem (w : Bool) (addr : Word) (s : State) : Host.Outcome State Fault Refusal :=
  .next (commit
    { leadAt := s.cur
      len := (Instr.accToMem w addr).length
      variant := .AccToMem
      fields := { w := some w }
      dst := .memory (.direct addr.toNat)
      src := .register (accName s.params w) } s)

end Sys2Proof.Machine
end

