-- ==== Sys2Proof/Machine/Immediate.lean ====
section
/-! DEFINITION. The meanings of MOV immediate to register/memory (43_mov_imm_rm.md) and MOV immediate to register
(44_mov_imm_reg.md). -/

namespace Sys2Proof.Machine

/-- ImmToRegMem (R100). The reg field is recorded and has no other effect (R101). -/
def execImmToRegMem (reg : BitVec 3) (rm : RmForm) (imm : ImmData) (s : State) :
    Host.Outcome State Fault Refusal :=
  .next (commit
    { leadAt := s.cur
      len := (Instr.immToRegMem reg rm imm).length
      variant := .ImmToRegMem
      fields := { w := some imm.wBit, mod := some rm.modValue, reg := some reg, rm := some rm.rmValue }
      dst := rmOperand rm imm.wBit
      src := immOperand imm } s)

/-- ImmToReg (R110). -/
def execImmToReg (reg : BitVec 3) (imm : ImmData) (s : State) : Host.Outcome State Fault Refusal :=
  .next (commit
    { leadAt := s.cur
      len := (Instr.immToReg reg imm).length
      variant := .ImmToReg
      fields := { w := some imm.wBit, reg := some reg }
      dst := .register (regName reg imm.wBit)
      src := immOperand imm } s)

end Sys2Proof.Machine
end

