-- ==== Sys2Proof/Machine/RegMem.lean ====
section
/-! DEFINITION. The meaning of MOV register/memory to/from register (42_mov_rm_reg.md). -/

namespace Sys2Proof.Machine

/-- RegMemToFromReg (R90): d=1 makes the reg operand the destination, d=0 the r/m operand. Both names are of width w
(R91). -/
def execRegMemToFromReg (d w : Bool) (reg : BitVec 3) (rm : RmForm) (s : State) :
    Host.Outcome State Fault Refusal :=
  let regOp := Operand.register (regName reg w)
  let rmOp := rmOperand rm w
  .next (commit
    { leadAt := s.cur
      len := (Instr.regMemToFromReg d w reg rm).length
      variant := .RegMemToFromReg
      fields := { d := some d, w := some w, mod := some rm.modValue, reg := some reg, rm := some rm.rmValue }
      dst := if d then regOp else rmOp
      src := if d then rmOp else regOp } s)

end Sys2Proof.Machine
end

