-- ==== Sys2Proof/Machine/Segment.lean ====
section
/-! DEFINITION. The meanings of MOV to/from segment register (46_mov_seg.md): each ends the run with UnhandledVariant,
which is a next state (R63). -/

namespace Sys2Proof.Machine

/-- RegMemToSeg (R130). -/
def execRegMemToSeg (s : State) : Host.Outcome State Fault Refusal := .next (raiseUnhandled .RegMemToSeg s)

/-- SegToRegMem (R131). -/
def execSegToRegMem (s : State) : Host.Outcome State Fault Refusal := .next (raiseUnhandled .SegToRegMem s)

end Sys2Proof.Machine
end

