-- ==== Sys2Proof/Machine/Dispatch.lean ====
section
/-! DEFINITION. The dispatch (40_decode_loop.md R61): one arm for each constructor of Instr, no wildcard. -/

namespace Sys2Proof.Machine

def exec (i : Instr) (s : State) : Host.Outcome State Fault Refusal :=
  match i with
  | .regMemToFromReg d w reg rm => Sys2Proof.Machine.execRegMemToFromReg d w reg rm s
  | .immToRegMem reg rm imm => Sys2Proof.Machine.execImmToRegMem reg rm imm s
  | .immToReg reg imm => Sys2Proof.Machine.execImmToReg reg imm s
  | .memToAcc w addr => Sys2Proof.Machine.execMemToAcc w addr s
  | .accToMem w addr => Sys2Proof.Machine.execAccToMem w addr s
  | .regMemToSeg => Sys2Proof.Machine.execRegMemToSeg s
  | .segToRegMem => Sys2Proof.Machine.execSegToRegMem s

end Sys2Proof.Machine
end

