-- ==== Sys2Proof/Machine/Step.lean ====
section
/-! DEFINITION. One step of the decode loop (40_decode_loop.md R60), and the host's way to place an instruction. -/

namespace Sys2Proof.Machine

/-- The body of an enabled step (R60, R61): at the end of the stream it stops; otherwise it decodes one instruction,
inside the FSM state `Decoding`, and runs it or raises. -/
def decodeStep (s : State) : Host.Outcome State Fault Refusal :=
  if s.cur = s.L then .next (endOfStream s)
  else
    match s.fetchInstr with
    | .ok (i, _) => exec i (beginDecode s)
    | .error e => .next (raise e (beginDecode s))

/-- One step. It is enabled only when `st = Scanning` (R60); `Terminated` has no step (R64). -/
def step (s : State) : Host.Outcome State Fault Refusal :=
  match s.st with
  | .scanning => decodeStep s
  | .decoding => .fault .notBetweenSteps
  | .terminated r => .fault (.terminated r)

/-- The state with an opcode-table word placed at the cursor, so that the next step decodes and runs it (DESIGN
CHOICE, assumption log 6). -/
def State.withFetchWord (s : State) (nbits w : Nat) : State := s.placeAtCursor (tableWordBytes nbits w)

end Sys2Proof.Machine
end

