-- ==== Sys2Proof/Machine/Pseudocode.lean ====
section
/-! DEFINITION. The spec's own pseudocode, transcribed: `Resolve` (R73), `ReadImmediate` (R79), the five decode procedures
(R90, R100, R110, R120, R121), `DecodeOne` (R61) and one step (R60, R62, R63). It works on bytes and mathematical
integers and knows nothing of `Instr`, `decodeOne` or `exec`. The machine does not run it: statements say that the machine's
step is this one. -/

namespace Sys2Proof.Machine.Pseudocode

/-- `v[hi:lo]` (R7): bits hi down to lo, read as an unsigned number. -/
def bits (v : Byte) (hi lo : Nat) : Nat := (v.toNat >>> lo) % 2 ^ (hi - lo + 1)

/-- `v[i]` (R7). -/
def bit (v : Byte) (i : Nat) : Bool := bits v i i == 1

/-- `RegName(i, w)` (R70), of an index that is a number. -/
def registerOf (i : Nat) (w : Bool) : Operand := .register (regName (BitVec.ofNat 3 i) w)

/-- `Base(rm)` (R72), of an rm that is a number. -/
def base (rm : Nat) : BaseExpr := baseOfRm (BitVec.ofNat 3 rm)

/-- `s16(u)` (R7), of the number that `u16le` gives. -/
def s16le (lo hi : Byte) : Int := if u16le lo hi < 32768 then u16le lo hi else (u16le lo hi : Int) - 65536

/-- `dispLen(mod, rm)` (R49), of numbers. -/
def dispLen (mod rm : Nat) : Nat :=
  match mod with
  | 0 => if rm = 6 then 2 else 0
  | 1 => 1
  | 2 => 2
  | _ => 0

/-- `Resolve(mod, rm, w, p)` (R73). -/
def resolve (read : ByteReader) (mod rm : Nat) (w : Bool) (p : Nat) : Except DecodeError (Operand × Nat) :=
  match mod with
  | 3 => return (registerOf rm w, p)
  | 0 =>
    if rm ≠ 6 then return (.memory (.baseOnly (base rm)), p)
    else do
      let lo ← read p
      let hi ← read (p + 1)
      return (.memory (.direct (u16le lo hi)), p + 2)
  | 1 => do
    let b ← read p
    return (.memory (.baseDisp (base rm) (sext16 b)), p + 1)
  | _ => do
    let lo ← read p
    let hi ← read (p + 1)
    return (.memory (.baseDisp (base rm) (s16le lo hi)), p + 2)

/-- `ReadImmediate(w, p)` (R79). -/
def readImmediate (read : ByteReader) (w : Bool) (p : Nat) : Except DecodeError (Operand × Nat) :=
  if w = false then do
    let b ← read p
    return (.immediate (sext16 b) .byte, p + 1)
  else do
    let lo ← read p
    let hi ← read (p + 1)
    return (.immediate (s16le lo hi) .word, p + 2)

/-- The fields of a ModRM byte with the opcode's, as R17 records them. -/
def modRmFields (d w : Option Bool) (m : Byte) : Fields :=
  { d := d, w := w, mod := some (BitVec.ofNat 2 (bits m 7 6)), reg := some (BitVec.ofNat 3 (bits m 5 3)),
    rm := some (BitVec.ofNat 3 (bits m 2 0)) }

/-- `DecodeRMR(op, at, p)` (R90). -/
def decodeRMR (read : ByteReader) (op : Byte) (start p : Nat) : Except DecodeError (Decoded × Nat) := do
  let d := bit op 1
  let w := bit op 0
  let m ← read p
  let (rmOp, q) ← resolve read (bits m 7 6) (bits m 2 0) w (p + 1)
  let regOp := registerOf (bits m 5 3) w
  return ({ leadAt := start, len := q - start, variant := .RegMemToFromReg, fields := modRmFields (some d) (some w) m,
            dst := if d then regOp else rmOp, src := if d then rmOp else regOp }, q)

/-- `DecodeIRM(op, at, p)` (R100). -/
def decodeIRM (read : ByteReader) (op : Byte) (start p : Nat) : Except DecodeError (Decoded × Nat) := do
  let w := bit op 0
  let m ← read p
  let (dst, q) ← resolve read (bits m 7 6) (bits m 2 0) w (p + 1)
  let (src, q) ← readImmediate read w q
  return ({ leadAt := start, len := q - start, variant := .ImmToRegMem, fields := modRmFields none (some w) m,
            dst := dst, src := src }, q)

/-- `DecodeIR(op, at, p)` (R110). -/
def decodeIR (read : ByteReader) (op : Byte) (start p : Nat) : Except DecodeError (Decoded × Nat) := do
  let w := bit op 3
  let reg := bits op 2 0
  let (src, q) ← readImmediate read w p
  return ({ leadAt := start, len := q - start, variant := .ImmToReg,
            fields := { w := some w, reg := some (BitVec.ofNat 3 reg) }, dst := registerOf reg w, src := src }, q)

/-- `DecodeMA(op, at, p)` (R120). -/
def decodeMA (params : Config.Params) (read : ByteReader) (op : Byte) (start p : Nat) :
    Except DecodeError (Decoded × Nat) := do
  let w := bit op 0
  let lo ← read p
  let hi ← read (p + 1)
  return ({ leadAt := start, len := 3, variant := .MemToAcc, fields := { w := some w },
            dst := .register (accName params w), src := .memory (.direct (u16le lo hi)) }, p + 2)

/-- `DecodeAM(op, at, p)` (R121). -/
def decodeAM (params : Config.Params) (read : ByteReader) (op : Byte) (start p : Nat) :
    Except DecodeError (Decoded × Nat) := do
  let w := bit op 0
  let lo ← read p
  let hi ← read (p + 1)
  return ({ leadAt := start, len := 3, variant := .AccToMem, fields := { w := some w },
            dst := .memory (.direct (u16le lo hi)), src := .register (accName params w) }, p + 2)

/-- What `DecodeOne` may raise (R61). -/
inductive Raised where
  | decode (e : DecodeError)
  | unhandled (v : OpcodeVariant)
deriving DecidableEq, Repr

/-- `DecodeOne(at)` (R61): the record, and the offset one past the instruction's last byte. -/
def decodeOne (params : Config.Params) (read : ByteReader) (start : Nat) : Except Raised (Decoded × Nat) :=
  match read start with
  | .error e => .error (.decode e)
  | .ok op =>
    match classify op with
    | none => .error (.decode (.unsupportedOpcode op))
    | some .RegMemToFromReg => (decodeRMR read op start (start + 1)).mapError .decode
    | some .ImmToRegMem => (decodeIRM read op start (start + 1)).mapError .decode
    | some .ImmToReg => (decodeIR read op start (start + 1)).mapError .decode
    | some .MemToAcc => (decodeMA params read op start (start + 1)).mapError .decode
    | some .AccToMem => (decodeAM params read op start (start + 1)).mapError .decode
    | some .RegMemToSeg => .error (.unhandled .RegMemToSeg)
    | some .SegToRegMem => .error (.unhandled .SegToRegMem)

/-- `reason(E)` (R63). -/
def reasonOf : Raised → Reason
  | .decode (.unsupportedOpcode _) => .error .unsupportedOpcode
  | .decode (.truncated _) => .error .truncatedInstruction
  | .unhandled _ => .unhandledVariant

/-- The `need` of a termination record (R15, R63). -/
def needOf : Raised → Option Nat
  | .decode (.truncated need) => some need
  | .decode (.unsupportedOpcode _) | .unhandled _ => none

/-- The commit of a record whose instruction ends at `q` (R62): three writes, and `st` stays. -/
def committed (s : State) (r : Decoded) (q : Nat) : State :=
  { s with recs := s.recs ++ [r], out := s.out ++ [render r], cur := q }

/-- The termination of a step that raised (R63, R145): `st`, `term` and, for UnhandledVariant, `notice`. -/
def stopped (s : State) (e : Raised) : State :=
  { s with
    st := .terminated (reasonOf e)
    term := some { reason := reasonOf e, leadAt := s.cur, byte := some (s.B.read s.cur), need := needOf e }
    notice := match e with
      | .unhandled v => some v
      | .decode _ => s.notice }

/-- The clean end (R60). -/
def exhausted (s : State) : State :=
  { s with
    st := .terminated .exhausted
    term := some { reason := .exhausted, leadAt := s.L, byte := none, need := none } }

/-- One enabled step (R60 to R63). -/
def step (s : State) : State :=
  if s.cur = s.L then exhausted s
  else
    match decodeOne s.params s.streamRead s.cur with
    | .ok (r, q) => committed s r q
    | .error e => stopped s e

end Sys2Proof.Machine.Pseudocode
end

