-- ==== Sys2Proof/Safety.lean ====
section
/-! DEFINITION. The words that statements about the machine use: runs, the invariant of a run, and what the parts of it
say. -/

namespace Sys2Proof.Machine

/-- `k` steps from a state (R64), stopping early where a step answers no next state. -/
def run : Nat → State → Host.Outcome State Fault Refusal
  | 0, s => .next s
  | k + 1, s =>
    match step s with
    | .next t => run k t
    | .fault r => .fault r
    | .refused r => .refused r

/-- Whether a variant is one of the two segment forms (R14). -/
def isSegmentForm : OpcodeVariant → Bool
  | .RegMemToSeg | .SegToRegMem => true
  | .RegMemToFromReg | .ImmToRegMem | .ImmToReg | .MemToAcc | .AccToMem => false

/-- The stream is written down in its canonical form, and every byte listed lies inside it (R10, R35). -/
def State.streamWf (s : State) : Prop :=
  s.B.wf = true ∧ ∀ c ∈ s.B, c.1 < s.L

/-- The records of a run, in order, are what `DecodeOne` gives at consecutive offsets from `a` to `b`: every byte between
belongs to exactly one instruction (R11, R67, R68). -/
def Tiles (s : State) : Nat → List Decoded → Nat → Prop
  | a, [], b => a = b
  | a, r :: rs, b =>
    r.leadAt = a ∧ Pseudocode.decodeOne s.params s.streamRead a = .ok (r, a + r.len) ∧ Tiles s (a + r.len) rs b

/-- What a termination record says when a run stopped for `reason` (R15, R140), with the notice register (R14). -/
def StopRecord (s : State) (reason : Reason) (t : TermInfo) : Prop :=
  t.reason = reason ∧ t.leadAt = s.cur ∧
    match reason with
    | .exhausted => s.cur = s.L ∧ t.byte = none ∧ t.need = none ∧ s.notice = none
    | .unhandledVariant =>
      s.cur < s.L ∧ t.byte = some (s.B.read s.cur) ∧ t.need = none ∧ s.notice = classify (s.B.read s.cur) ∧
        (s.notice = some .RegMemToSeg ∨ s.notice = some .SegToRegMem)
    | .error .unsupportedOpcode =>
      s.cur < s.L ∧ t.byte = some (s.B.read s.cur) ∧ t.need = none ∧ s.notice = none ∧
        classify (s.B.read s.cur) = none
    | .error .truncatedInstruction =>
      s.cur < s.L ∧ t.byte = some (s.B.read s.cur) ∧ t.need = some s.L ∧ s.notice = none

/-- The FSM, the termination record and the notice register agree, and no observer sees `Decoding` (R12, R14, R15). -/
def State.stopWf (s : State) : Prop :=
  match s.st with
  | .scanning => s.term = none ∧ s.notice = none
  | .decoding => False
  | .terminated reason => ∃ t, s.term = some t ∧ StopRecord s reason t

/-- The invariant of a run: what holds after reset over any stream, and after every step. -/
structure State.Inv (s : State) : Prop where
  /-- The stream is in canonical form (R10). -/
  stream : s.streamWf
  /-- `cur ≤ L` (R65). -/
  cursor : s.cur ≤ s.L
  /-- `out[i] = Render(recs[i])` (R13). -/
  lines : s.out = s.recs.map render
  /-- The records are the decoding of `B[0..cur-1]` (R62, R67). -/
  tiled : Tiles s 0 s.recs s.cur
  /-- The FSM, `term` and `notice` agree (R12, R14, R15). -/
  stop : s.stopWf

/-- A hardware build whose cursor is `OFFSET_BITS` wide can hold this stream (R6): `L < 2^OFFSET_BITS`. -/
def State.fitsBuild (s : State) : Prop := s.L < 2 ^ Config.offsetBits

/-- The r/m operand of a record of a variant with a ModRM byte (R90, R100): the destination, but for a RegMemToFromReg
with d=1 the source. -/
def Decoded.rmOperand (r : Decoded) : Operand := if r.fields.d = some true then r.src else r.dst

/-- An operand's numbers lie in their ranges (R18). -/
def Operand.inRange : Operand → Prop
  | .register _ => True
  | .memory (.baseOnly _) => True
  | .memory (.baseDisp _ d) => -32768 ≤ d ∧ d ≤ 32767
  | .memory (.direct a) => a ≤ 65535
  | .immediate v .byte => -128 ≤ v ∧ v ≤ 127
  | .immediate v .word => -32768 ≤ v ∧ v ≤ 32767

/-- Whether a register name is one of the eight 16-bit ones (R70). -/
def isWordName : RegName → Bool
  | .al | .cl | .dl | .bl | .ah | .ch | .dh | .bh => false
  | .ax | .cx | .dx | .bx | .sp | .bp | .si | .di => true

/-- The number that decimal digits spell, most significant first (R80). -/
def decValue (ds : List Char) : Nat := ds.foldl (fun n c => 10 * n + (c.toNat - 48)) 0

/-- Decimal digits with no leading zero: at least one, each of '0' to '9', the first '0' only in "0" (R80). -/
def IsDecimal (ds : List Char) : Prop :=
  ds ≠ [] ∧ (∀ c ∈ ds, c.isDigit = true) ∧ (ds.head? = some '0' → ds = ['0'])

end Sys2Proof.Machine
end

