-- ==== Sys2Proof/Certificates/Slice0/Obligations.lean ====
section
/-! DEFINITION. The statements about the block, from the numbered rules of spec/. OBLIGATIONS.json says of each which rule
it formalises. -/

open Sys2Proof Sys2Proof.Machine

/-! ## Encoding, classification and fields -/

/-- Decoding the bytes of a well-formed instruction, wherever they stand and whatever follows them, gives it back, with
the offset one past its last byte. No bit of an encoding is dropped, the ignored ones of R46 among them. -/
def Obligations.DecodeOfEncodedInstructionIsTheInstruction : Prop :=
  ∀ (i : Instr) (before after : List Byte), i.wellFormed = true →
    decodeOne (listReader (before ++ encode i ++ after)) before.length =
      .ok (i, before.length + (encode i).length)

/-- An instruction that decodes from a list of bytes is well formed, has the length of R48, and encodes to exactly the
bytes that it consumed. -/
def Obligations.DecodedInstructionEncodesToTheBytesConsumed : Prop :=
  ∀ (bytes : List Byte) (start q : Nat) (i : Instr), decodeOne (listReader bytes) start = .ok (i, q) →
    i.wellFormed = true ∧ q = start + i.length ∧ q ≤ bytes.length ∧
      (bytes.drop start).take i.length = encode i

/-- The opcode map over all 256 lead bytes, the prefix bytes among those that raise. The map is the spec's own inference
(30_encoding.md R44, "derived: from rule R41 and rule R42"), from values that it supplies itself (R41, "from general
knowledge, not in source"; assumption log 7). -/
def Obligations.OpcodeMapOfEveryLeadByte : Prop :=
  ∀ (read : ByteReader) (start : Nat) (op : Byte), read start = .ok op →
    (0x88 ≤ op.toNat ∧ op.toNat ≤ 0x8B → classify op = some .RegMemToFromReg) ∧
    (op.toNat = 0x8C → classify op = some .SegToRegMem) ∧
    (op.toNat = 0x8E → classify op = some .RegMemToSeg) ∧
    (0xA0 ≤ op.toNat ∧ op.toNat ≤ 0xA1 → classify op = some .MemToAcc) ∧
    (0xA2 ≤ op.toNat ∧ op.toNat ≤ 0xA3 → classify op = some .AccToMem) ∧
    (0xB0 ≤ op.toNat ∧ op.toNat ≤ 0xBF → classify op = some .ImmToReg) ∧
    (0xC6 ≤ op.toNat ∧ op.toNat ≤ 0xC7 → classify op = some .ImmToRegMem) ∧
    (op.toNat ≤ 0x87 ∨ op.toNat = 0x8D ∨ (0x8F ≤ op.toNat ∧ op.toNat ≤ 0x9F) ∨
        (0xA4 ≤ op.toNat ∧ op.toNat ≤ 0xAF) ∨ (0xC0 ≤ op.toNat ∧ op.toNat ≤ 0xC5) ∨ 0xC8 ≤ op.toNat →
      decodeOne read start = .error (.unsupportedOpcode op)) ∧
    (op ∈ [0x26#8, 0x2E#8, 0x36#8, 0x3E#8, 0xF0#8, 0xF2#8, 0xF3#8] →
      decodeOne read start = .error (.unsupportedOpcode op))

/-- No byte satisfies two rows of the pattern table, so the first match is the unique match, in any order of the rows; and
the table stands in the enumeration order of R16. It is the spec's own inference (30_encoding.md R43, "derived: from rule
R41; disjointness checked over all 256 byte values"). -/
def Obligations.ClassIsTheUniqueRowInAnyOrder : Prop :=
  (∀ (op : Byte) (r r' : PatternRow), r ∈ patternTable → r' ∈ patternTable →
      op &&& r.mask = r.expected → op &&& r'.mask = r'.expected → r = r') ∧
  (∀ (op : Byte) (v : OpcodeVariant), classify op = some v ↔
      ∃ r ∈ patternTable, op &&& r.mask = r.expected ∧ r.variant = v) ∧
  (∀ (op : Byte) (table : List PatternRow), table.Perm patternTable → firstMatch table op = classify op) ∧
  patternTable.map (fun r => r.variant) =
    [.RegMemToFromReg, .ImmToRegMem, .ImmToReg, .MemToAcc, .AccToMem, .RegMemToSeg, .SegToRegMem]

/-- R45: each field is its bits of the byte, as mask and shift. -/
def Obligations.FieldExtractorIsMaskAndShift : Prop :=
  ∀ op m : Byte,
    (dBit op).toNat = (op.toNat >>> 1) &&& 1 ∧
    (wBit op).toNat = op.toNat &&& 1 ∧
    (wImmBit op).toNat = (op.toNat >>> 3) &&& 1 ∧
    (regImmField op).toNat = op.toNat &&& 0b111 ∧
    (modField m).toNat = (m.toNat >>> 6) &&& 0b11 ∧
    (regField m).toNat = (m.toNat >>> 3) &&& 0b111 ∧
    (rmField m).toNat = m.toNat &&& 0b111

/-- The length of a committed instruction, from the lead byte and the ModRM byte. The segment forms never commit. It is the
spec's own inference (30_encoding.md R48, "derived: from rule R47 and rule R49"). -/
def Obligations.CommittedLengthFromLeadAndModRmBytes : Prop :=
  ∀ (s t : State) (r : Decoded) (op : Byte), s.streamRead s.cur = .ok op → step s = .next t →
    t.recs = s.recs ++ [r] →
      t.cur = s.cur + r.len ∧
      (op &&& 0xFC = 0x88 → ∀ m, s.streamRead (s.cur + 1) = .ok m →
        r.len = 2 + Pseudocode.dispLen (Pseudocode.bits m 7 6) (Pseudocode.bits m 2 0)) ∧
      (op &&& 0xFE = 0xC6 → ∀ m, s.streamRead (s.cur + 1) = .ok m →
        r.len = 2 + Pseudocode.dispLen (Pseudocode.bits m 7 6) (Pseudocode.bits m 2 0) +
          if Pseudocode.bit op 0 then 2 else 1) ∧
      (op &&& 0xF0 = 0xB0 → r.len = 1 + if Pseudocode.bit op 3 then 2 else 1) ∧
      (op &&& 0xFE = 0xA0 → r.len = 3) ∧
      (op &&& 0xFE = 0xA2 → r.len = 3) ∧
      op ≠ 0x8E ∧ op ≠ 0x8C

/-- Words of the source's four scenarios and one of each other family decode to the instructions they stand for
(95_test_vectors.md sections 1, 2.7 and 2.8). The lead-byte patterns are the spec's own supply (92_eei_decisions.md D1;
assumption log 7). -/
def Obligations.SpecWordsDecodeAsWritten : Prop :=
  decodeBytes [0x89, 0xD9] = .ok (.regMemToFromReg false true 3 (.register 1), 2) ∧
  decodeBytes [0xB8, 0x09, 0x00] = .ok (.immToReg 0 (.word 9), 3) ∧
  decodeBytes [0xC6, 0x40, 0x04, 0x1D] = .ok (.immToRegMem 0 (.disp8 .bxSi 4) (.byte 29), 4) ∧
  decodeBytes [0x8A, 0x00] = .ok (.regMemToFromReg true false 0 (.baseOnly .bxSi), 2) ∧
  decodeBytes [0xA1, 0xFB, 0x09] = .ok (.memToAcc true 2555, 3) ∧
  decodeBytes [0xA3, 0xFA, 0x09] = .ok (.accToMem true 2554, 3) ∧
  decodeBytes [0x8E] = .ok (.regMemToSeg, 1) ∧
  decodeBytes [0x8C] = .ok (.segToRegMem, 1)

/-! ## The step and the dispatch -/

/-- A step whose fetch answers an instruction is that instruction's meaning, run inside the FSM state `Decoding`; and a
meaning gives there what it gives outside it. -/
def Obligations.StepRunsTheDecodedInstruction : Prop :=
  ∀ (s : State) (i : Instr) (q : Nat), s.st = .scanning → s.fetchInstr = .ok (i, q) →
    step s = exec i { s with st := .decoding } ∧ step s = exec i s

/-- When the bytes at the cursor are those of a well-formed instruction, a step is the meaning of that instruction. -/
def Obligations.StepRunsTheInstructionAtTheCursor : Prop :=
  ∀ (s : State) (i : Instr), s.st = .scanning → i.wellFormed = true →
    (∀ k (h : k < (encode i).length), s.streamRead (s.cur + k) = .ok (encode i)[k]) →
      s.fetchInstr = .ok (i, s.cur + (encode i).length) ∧ step s = exec i s

/-- The frame of every meaning: the stream, its length, every byte of it and the parameters stay. A decoded variant
leaves `term` and `notice` and appends one record and one line. A segment form leaves `cur`, `recs` and `out`. -/
def Obligations.MeaningsFrame : Prop :=
  ∀ (i : Instr) (s t : State), exec i s = .next t →
    t.B = s.B ∧ t.L = s.L ∧ t.params = s.params ∧
    (∀ a, t.B.read a = s.B.read a ∧ t.streamRead a = s.streamRead a) ∧
    (isSegmentForm i.variant = false →
      t.term = s.term ∧ t.notice = s.notice ∧ (∃ r, t.recs = s.recs ++ [r]) ∧ ∃ line, t.out = s.out ++ [line]) ∧
    (isSegmentForm i.variant = true → t.cur = s.cur ∧ t.recs = s.recs ∧ t.out = s.out)

/-! ## The stream -/

/-- R30: the byte inside the stream, TruncatedInstruction with the offset past its end; and the read at `cur = L` is not
made, since the step ends the run first. -/
def Obligations.StreamReadAnswersTheByteOrRaises : Prop :=
  ∀ (s : State) (k : Nat),
    (k < s.L → s.streamRead k = .ok (s.B.read k)) ∧
    (s.L ≤ k → s.streamRead k = .error (.truncated k)) ∧
    (s.st = .scanning → s.cur = s.L → ∃ t, step s = .next t ∧ t.st = .terminated .exhausted)

/-- No step writes the stream, its length or the parameters: every read answers after a step what it answered before. -/
def Obligations.NoStepWritesTheStream : Prop :=
  ∀ s t : State, step s = .next t →
    t.B = s.B ∧ t.L = s.L ∧ t.params = s.params ∧ ∀ a, t.streamRead a = s.streamRead a

/-- What the caller supplies before a run is what the block reads, byte for byte, and it is held in the canonical form.
`supply` is the model's form of the caller's part (assumption logs 1 and 5). -/
def Obligations.SuppliedStreamReadsBack : Prop :=
  ∀ (s : State) (bytes : List Byte) (params : Config.Params),
    (s.supply bytes params).streamWf ∧ (s.supply bytes params).L = bytes.length ∧
    (s.supply bytes params).params = params ∧
    ∀ k, (s.supply bytes params).streamRead k = listReader bytes k

/-! ## Operands and immediates -/

/-- R74, R75, R77 and R78: the r/m operand of a committed instruction, by its mod field, and how far the cursor goes past
the ModRM byte: over the displacement bytes, then over the data bytes that ImmToRegMem has (none for
RegMemToFromReg). -/
def Obligations.ResolverOperandByMod : Prop :=
  ∀ (s t : State) (r : Decoded) (op m : Byte),
    s.streamRead s.cur = .ok op → op &&& 0xFC = 0x88 ∨ op &&& 0xFE = 0xC6 → s.streamRead (s.cur + 1) = .ok m →
    step s = .next t → t.recs = s.recs ++ [r] →
    let w := Pseudocode.bit op 0
    let rm := Pseudocode.bits m 2 0
    let data := if op &&& 0xFC = 0x88 then 0 else if w then 2 else 1
    (Pseudocode.bits m 7 6 = 3 →
      r.rmOperand = .register (regName (BitVec.ofNat 3 rm) w) ∧ t.cur = s.cur + 2 + data) ∧
    (Pseudocode.bits m 7 6 = 0 → rm ≠ 6 →
      r.rmOperand = .memory (.baseOnly (Pseudocode.base rm)) ∧ t.cur = s.cur + 2 + data) ∧
    (Pseudocode.bits m 7 6 = 1 → ∀ b, s.streamRead (s.cur + 2) = .ok b →
      r.rmOperand = .memory (.baseDisp (Pseudocode.base rm) b.toInt) ∧ -128 ≤ b.toInt ∧ b.toInt ≤ 127 ∧
        t.cur = s.cur + 3 + data) ∧
    (Pseudocode.bits m 7 6 = 2 →
      ∀ lo hi, s.streamRead (s.cur + 2) = .ok lo → s.streamRead (s.cur + 3) = .ok hi →
        r.rmOperand = .memory (.baseDisp (Pseudocode.base rm) (hi ++ lo : BitVec 16).toInt) ∧
        -32768 ≤ (hi ++ lo : BitVec 16).toInt ∧ (hi ++ lo : BitVec 16).toInt ≤ 32767 ∧
        t.cur = s.cur + 4 + data)

/-- The direct address of mod=0 with rm=6: unsigned, with no base, its first byte the low one. That byte order is the
spec's own decision (92_eei_decisions.md D3: "Little-endian, low byte first"), and so is its spelling (D4). -/
def Obligations.DirectAddressIsUnsignedAndLittleEndian : Prop :=
  ∀ (s t : State) (r : Decoded) (op m lo hi : Byte),
    s.streamRead s.cur = .ok op → op &&& 0xFC = 0x88 ∨ op &&& 0xFE = 0xC6 → s.streamRead (s.cur + 1) = .ok m →
    Pseudocode.bits m 7 6 = 0 → Pseudocode.bits m 2 0 = 6 →
    s.streamRead (s.cur + 2) = .ok lo → s.streamRead (s.cur + 3) = .ok hi →
    step s = .next t → t.recs = s.recs ++ [r] →
      let data := if op &&& 0xFC = 0x88 then 0 else if Pseudocode.bit op 0 then 2 else 1
      r.rmOperand = .memory (.direct (lo.toNat + 256 * hi.toNat)) ∧ t.cur = s.cur + 4 + data ∧
        operandText (tagsImmediate r.variant) r.rmOperand = "[" ++ dec (lo.toNat + 256 * hi.toNat : Nat) ++ "]"

/-- R79: the immediate, at the offset `p` of its first byte. With w=0 it is one byte, sign-extended, with tag `byte`;
with w=1 two bytes, little-endian and signed, with tag `word`. Each read raises TruncatedInstruction where the stream has
ended. `p ≤ L` says that the displacement bytes before it are there. -/
def Obligations.ImmediateReaderValueAndTag : Prop :=
  ∀ (s : State) (op : Byte) (p : Nat) (w : Bool), s.st = .scanning → s.streamRead s.cur = .ok op →
    (op &&& 0xFE = 0xC6 ∧ w = Pseudocode.bit op 0 ∧ p ≤ s.L ∧ ∃ m, s.streamRead (s.cur + 1) = .ok m ∧
        p = s.cur + 2 + Pseudocode.dispLen (Pseudocode.bits m 7 6) (Pseudocode.bits m 2 0)) ∨
      (op &&& 0xF0 = 0xB0 ∧ w = Pseudocode.bit op 3 ∧ p = s.cur + 1) →
    (w = false →
      (∀ b, s.streamRead p = .ok b → ∃ t r, step s = .next t ∧ t.recs = s.recs ++ [r] ∧
        r.src = .immediate b.toInt .byte ∧ -128 ≤ b.toInt ∧ b.toInt ≤ 127 ∧ t.cur = p + 1) ∧
      (s.L ≤ p → step s = .next (Pseudocode.stopped s (.decode (.truncated p))))) ∧
    (w = true →
      (∀ lo hi, s.streamRead p = .ok lo → s.streamRead (p + 1) = .ok hi →
        ∃ t r, step s = .next t ∧ t.recs = s.recs ++ [r] ∧
          r.src = .immediate (hi ++ lo : BitVec 16).toInt .word ∧ -32768 ≤ (hi ++ lo : BitVec 16).toInt ∧
          (hi ++ lo : BitVec 16).toInt ≤ 32767 ∧ t.cur = p + 2) ∧
      (s.L ≤ p → step s = .next (Pseudocode.stopped s (.decode (.truncated p)))) ∧
      (p + 1 = s.L → step s = .next (Pseudocode.stopped s (.decode (.truncated (p + 1))))))

/-- Each of the 16 register names, as the destination of the ImmToReg lead byte that selects it. The table's contents are
the spec's own supply (41_operands.md R70, "from general knowledge, not in source"; assumption log 8). -/
def Obligations.RegisterNamesByIndexAndWidth : Prop :=
  ∀ (s : State) (i : Nat) (lo hi : Byte), s.st = .scanning → i < 8 → s.streamRead (s.cur + 1) = .ok lo →
    (s.streamRead s.cur = .ok (BitVec.ofNat 8 (0xB0 + i)) → ∃ t, step s = .next t ∧
      t.out = s.out ++ ["mov " ++ ["al", "cl", "dl", "bl", "ah", "ch", "dh", "bh"].getD i "" ++ ", " ++
        dec lo.toInt]) ∧
    (s.streamRead s.cur = .ok (BitVec.ofNat 8 (0xB8 + i)) → s.streamRead (s.cur + 2) = .ok hi →
      ∃ t, step s = .next t ∧
      t.out = s.out ++ ["mov " ++ ["ax", "cx", "dx", "bx", "sp", "bp", "si", "di"].getD i "" ++ ", " ++
        dec (hi ++ lo : BitVec 16).toInt])

/-- R91: the w bit sets the width of both operands of a RegMemToFromReg, and a memory operand's text carries none. -/
def Obligations.RegMemOperandsShareTheWidth : Prop :=
  ∀ (s t : State) (r : Decoded) (op : Byte), s.streamRead s.cur = .ok op → op &&& 0xFC = 0x88 →
    step s = .next t → t.recs = s.recs ++ [r] →
      r.fields.w = some (Pseudocode.bit op 0) ∧
      (∀ n, r.dst = .register n ∨ r.src = .register n → isWordName n = Pseudocode.bit op 0) ∧
      (∀ m tagged, r.dst = .memory m ∨ r.src = .memory m → operandText tagged (.memory m) = memText m) ∧
      ((∃ n, r.dst = .register n) ∨ ∃ n, r.src = .register n)

/-- R87: the three arithmetic laws. -/
def Obligations.ArithmeticLaws : Prop :=
  (∀ b : Byte, (b.toNat ≤ 127 → sext16 b = b.toNat) ∧
    (128 ≤ b.toNat → sext16 b = (b.toNat : Int) - 256 ∧ -128 ≤ sext16 b ∧ sext16 b ≤ -1) ∧ sext16 b = b.toInt) ∧
  (∀ u : Word, (u.toNat ≤ 32767 → s16 u = u.toNat) ∧
    (32768 ≤ u.toNat → s16 u = (u.toNat : Int) - 65536 ∧ -32768 ≤ s16 u ∧ s16 u ≤ -1) ∧ s16 u = u.toInt) ∧
  (∀ lo hi : Byte, u16le lo hi = lo.toNat + 256 * hi.toNat) ∧
  (∀ v : Int, -128 ≤ v → v ≤ 127 → sext16 (BitVec.ofInt 8 v) = v)

/-! ## Text -/

/-- Decimal ASCII digits with no leading zero that spell the magnitude, after a "-" exactly when the number is negative.
Radix and sign are the spec's own decision (92_eei_decisions.md D4: "Decimal, with no leading zeros"; assumption log
10). -/
def Obligations.DecimalSpelling : Prop :=
  ∀ n : Int, ∃ ds : List Char, IsDecimal ds ∧ decValue ds = n.natAbs ∧
    (dec n).toList = if n < 0 then '-' :: ds else ds

/-- The text of a Memory operand (R81, R82): a displacement's sign and magnitude stand apart, and the magnitude is digits
alone. That the digits are decimal, and how a direct address is spelled, is the spec's own decision
(92_eei_decisions.md D4; assumption log 10). -/
def Obligations.MemoryTextShowsSignAndMagnitude : Prop :=
  (∀ b, memText (.baseOnly b) = "[" ++ baseText b ++ "]") ∧
  (∀ a, ∃ ds, IsDecimal ds ∧ decValue ds = a ∧ memText (.direct a) = "[" ++ String.ofList ds ++ "]") ∧
  (∀ b d, (d = 0 → memText (.baseDisp b d) = "[" ++ baseText b ++ "]") ∧
    (0 < d → ∃ ds, IsDecimal ds ∧ (decValue ds : Int) = d ∧
      memText (.baseDisp b d) = "[" ++ baseText b ++ " + " ++ String.ofList ds ++ "]") ∧
    (d < 0 → ∃ ds, IsDecimal ds ∧ (decValue ds : Int) = -d ∧
      memText (.baseDisp b d) = "[" ++ baseText b ++ " - " ++ String.ofList ds ++ "]"))

/-- R88: the base term is the table's (R72), whatever the displacement; with displacement 0 the text is that of mod=0,
and the record still tells them apart. -/
def Obligations.BaseTermIsIndependentOfTheDisplacement : Prop :=
  ∀ (read : ByteReader) (mod : BitVec 2) (rm : BitVec 3) (p q : Nat) (f : RmForm) (w : Bool),
    readRmForm read mod rm p = .ok (f, q) → mod ≠ 3 →
    let base := ["bx + si", "bx + di", "bp + si", "bp + di", "si", "di", "bp", "bx"].getD rm.toNat ""
    (rm ≠ 6 → ∃ rest, operandText false (rmOperand f w) = "[" ++ base ++ rest) ∧
    (rm ≠ 6 → mod = 0 → operandText false (rmOperand f w) = "[" ++ base ++ "]" ∧
      rmOperand f w = .memory (.baseOnly (baseOfRm rm))) ∧
    (f = .disp8 (baseOfRm rm) 0 ∨ f = .disp16 (baseOfRm rm) 0 →
      operandText false (rmOperand f w) = "[" ++ base ++ "]" ∧
      rmOperand f w = .memory (.baseDisp (baseOfRm rm) 0))

/-- R83, R86, R102 and R111: the immediate of ImmToRegMem is always tagged, with the word "byte" for w=0 and "word" for
w=1, and that of ImmToReg never, whose record still carries the tag; no other variant has an immediate. R83's two texts
and R102's two lines, whose destinations are registers, are written out. -/
def Obligations.WidthTagsAreFixedPerVariant : Prop :=
  (∀ (s t : State) (r : Decoded), step s = .next t → t.recs = s.recs ++ [r] →
    (r.variant = .ImmToRegMem → ∃ v w, r.fields.w = some w ∧ r.src = .immediate v (if w then .word else .byte) ∧
      t.out = s.out ++
        ["mov " ++ operandText false r.dst ++ ", " ++ (if w then "word" else "byte") ++ " " ++ dec v]) ∧
    (r.variant = .ImmToReg → ∃ v w, r.fields.w = some w ∧ r.src = .immediate v (if w then .word else .byte) ∧
      t.out = s.out ++ ["mov " ++ operandText false r.dst ++ ", " ++ dec v]) ∧
    (r.variant ≠ .ImmToRegMem → r.variant ≠ .ImmToReg → ∀ v tag,
      r.dst ≠ .immediate v tag ∧ r.src ≠ .immediate v tag)) ∧
  (∀ v : Int, (∀ tag, operandText false (.immediate v tag) = dec v) ∧
    operandText true (.immediate v .byte) = "byte" ++ " " ++ dec v ∧
    operandText true (.immediate v .word) = "word" ++ " " ++ dec v) ∧
  operandText true (.immediate (-1) .byte) = "byte -1" ∧
  (∀ s : State, s.st = .scanning →
    (s.streamRead s.cur = .ok 0xC7 → s.streamRead (s.cur + 1) = .ok 0xC1 → s.streamRead (s.cur + 2) = .ok 0x0C →
      s.streamRead (s.cur + 3) = .ok 0x00 → ∃ t, step s = .next t ∧ t.out = s.out ++ ["mov cx, word 12"]) ∧
    (s.streamRead s.cur = .ok 0xC6 → s.streamRead (s.cur + 1) = .ok 0xC3 → s.streamRead (s.cur + 2) = .ok 0xFF →
      ∃ t, step s = .next t ∧ t.out = s.out ++ ["mov bl, byte -1"]))

/-- R85: the form of a line: "mov ", the destination, ", ", the source, with no space around it and no line terminator. An
immediate in it is tagged exactly when the variant is ImmToRegMem, as R86 fixes. -/
def Obligations.LinesHaveTheCanonicalForm : Prop :=
  ∀ (s t : State) (line : String), step s = .next t → t.out = s.out ++ [line] →
    ∃ r, t.recs = s.recs ++ [r] ∧
      let tagged := decide (r.variant = .ImmToRegMem)
      line = "mov " ++ operandText tagged r.dst ++ ", " ++ operandText tagged r.src ∧
      line.toList.head? = some 'm' ∧ (∀ c, line.toList.getLast? = some c → c ≠ ' ') ∧
      '\n' ∉ line.toList ∧ '\r' ∉ line.toList

/-! ## The instructions: each completes -/

/-- RegMemToFromReg completes from every state: its record, its line, the cursor past its bytes, and nothing else. -/
def Obligations.RegMemToFromRegCommits : Prop :=
  ∀ (d w : Bool) (reg : BitVec 3) (rm : RmForm) (s : State), rm.wellFormed = true →
    let regOp := Operand.register (regName reg w)
    let r : Decoded :=
      { leadAt := s.cur, len := 2 + rm.bytes.length, variant := .RegMemToFromReg,
        fields := { d := some d, w := some w, mod := some rm.modValue, reg := some reg, rm := some rm.rmValue },
        dst := if d then regOp else rmOperand rm w, src := if d then rmOperand rm w else regOp }
    exec (.regMemToFromReg d w reg rm) s = .next { s with
      recs := s.recs ++ [r],
      out := s.out ++ ["mov " ++ operandText false r.dst ++ ", " ++ operandText false r.src],
      cur := s.cur + r.len, st := .scanning }

/-- ImmToRegMem completes from every state, its immediate tagged: "byte" for one data byte, "word" for two. -/
def Obligations.ImmToRegMemCommits : Prop :=
  ∀ (reg : BitVec 3) (rm : RmForm) (imm : ImmData) (s : State), rm.wellFormed = true →
    let r : Decoded :=
      { leadAt := s.cur, len := 2 + rm.bytes.length + imm.bytes.length, variant := .ImmToRegMem,
        fields := { w := some imm.wBit, mod := some rm.modValue, reg := some reg, rm := some rm.rmValue },
        dst := rmOperand rm imm.wBit,
        src := match imm with
          | .byte b => .immediate b.toInt .byte
          | .word v => .immediate v.toInt .word }
    let tagged := match imm with
      | .byte b => "byte " ++ dec b.toInt
      | .word v => "word " ++ dec v.toInt
    exec (.immToRegMem reg rm imm) s = .next { s with
      recs := s.recs ++ [r],
      out := s.out ++ ["mov " ++ operandText false r.dst ++ ", " ++ tagged],
      cur := s.cur + r.len, st := .scanning }

/-- ImmToReg completes from every state, its immediate untagged. -/
def Obligations.ImmToRegCommits : Prop :=
  ∀ (reg : BitVec 3) (imm : ImmData) (s : State),
    let r : Decoded :=
      { leadAt := s.cur, len := 1 + imm.bytes.length, variant := .ImmToReg,
        fields := { w := some imm.wBit, reg := some reg },
        dst := .register (regName reg imm.wBit),
        src := match imm with
          | .byte b => .immediate b.toInt .byte
          | .word v => .immediate v.toInt .word }
    let value := match imm with
      | .byte b => b.toInt
      | .word v => v.toInt
    exec (.immToReg reg imm) s = .next { s with
      recs := s.recs ++ [r],
      out := s.out ++ ["mov " ++ regText (regName reg imm.wBit) ++ ", " ++ dec value],
      cur := s.cur + r.len, st := .scanning }

/-- MemToAcc and AccToMem complete from every state, and the accumulator's name follows `ACC_HONORS_W` (R122), which is
false by default: the spec's own decision (92_eei_decisions.md D5; assumption log 11). That the machine's reset state holds
that default is the model's own choice (DESIGN CHOICE, assumption log 1): the spec's reset leaves the parameters as the
caller gave them (R161). -/
def Obligations.AccumulatorFormsCommit : Prop :=
  Config.Params.default.accHonorsW = false ∧ State.reset.params = Config.Params.default ∧
  ∀ (w : Bool) (addr : Word) (s : State) (acc : RegName),
    (s.params.accHonorsW = false → acc = .ax) → (s.params.accHonorsW = true → acc = if w then .ax else .al) →
    let memOp := Operand.memory (.direct addr.toNat)
    let load : Decoded :=
      { leadAt := s.cur, len := 3, variant := .MemToAcc, fields := { w := some w }, dst := .register acc, src := memOp }
    let store : Decoded :=
      { leadAt := s.cur, len := 3, variant := .AccToMem, fields := { w := some w }, dst := memOp, src := .register acc }
    exec (.memToAcc w addr) s = .next { s with
      recs := s.recs ++ [load],
      out := s.out ++ ["mov " ++ regText acc ++ ", [" ++ dec addr.toNat ++ "]"],
      cur := s.cur + 3, st := .scanning } ∧
    exec (.accToMem w addr) s = .next { s with
      recs := s.recs ++ [store],
      out := s.out ++ ["mov [" ++ dec addr.toNat ++ "], " ++ regText acc],
      cur := s.cur + 3, st := .scanning }

/-- The segment forms complete from every state whose cursor is inside the stream: their effect is to end the run with
UnhandledVariant (R130, R131). That the cursor stays is the spec's own decision (92_eei_decisions.md D6 and D7;
assumption logs 12 and 13). -/
def Obligations.SegmentFormsStopTheRun : Prop :=
  ∀ s : State, s.cur < s.L →
    let info : TermInfo :=
      { reason := .unhandledVariant, leadAt := s.cur, byte := some (s.B.read s.cur), need := none }
    exec .regMemToSeg s = .next { s with
      st := .terminated .unhandledVariant, term := some info, notice := some .RegMemToSeg } ∧
    exec .segToRegMem s = .next { s with
      st := .terminated .unhandledVariant, term := some info, notice := some .SegToRegMem }

/-- The two encodings of one register-to-register move give the same line and the same cursor, and records that differ:
the spec's own inference (42_mov_rm_reg.md R92, "Two encodings give the same text"). -/
def Obligations.TwoEncodingsOfOneRegisterMove : Prop :=
  ∀ (w : Bool) (a b : BitVec 3) (s : State), ∃ t u,
    exec (.regMemToFromReg false w b (.register a)) s = .next t ∧
    exec (.regMemToFromReg true w a (.register b)) s = .next u ∧
    u.out = t.out ∧ u.cur = t.cur ∧ u.recs ≠ t.recs ∧
    t.out = s.out ++ ["mov " ++ regText (regName a w) ++ ", " ++ regText (regName b w)]

/-! ## The instructions, from the bytes of the stream -/

/-- R90: RegMemToFromReg from its bytes. -/
def Obligations.RegMemToFromRegFromBytes : Prop :=
  ∀ (s : State) (op : Byte), s.st = .scanning → s.streamRead s.cur = .ok op → op &&& 0xFC = 0x88 →
    let d := Pseudocode.bit op 1
    let w := Pseudocode.bit op 0
    (∀ n, s.streamRead (s.cur + 1) = .error (.truncated n) →
      step s = .next (Pseudocode.stopped s (.decode (.truncated n)))) ∧
    (∀ m, s.streamRead (s.cur + 1) = .ok m →
      let mod := Pseudocode.bits m 7 6
      let rm := Pseudocode.bits m 2 0
      let regOp := Operand.register (regName (BitVec.ofNat 3 (Pseudocode.bits m 5 3)) w)
      (∀ n, Pseudocode.resolve s.streamRead mod rm w (s.cur + 2) = .error (.truncated n) →
        step s = .next (Pseudocode.stopped s (.decode (.truncated n)))) ∧
      (∀ rmOp q, Pseudocode.resolve s.streamRead mod rm w (s.cur + 2) = .ok (rmOp, q) →
        q = s.cur + 2 + Pseudocode.dispLen mod rm ∧
        step s = .next (Pseudocode.committed s
          { leadAt := s.cur, len := q - s.cur, variant := .RegMemToFromReg,
            fields := Pseudocode.modRmFields (some d) (some w) m,
            dst := if d then regOp else rmOp, src := if d then rmOp else regOp } q))) ∧
    (op = 0x89 → s.streamRead (s.cur + 1) = .ok 0xD9 →
      ∃ t, step s = .next t ∧ t.out = s.out ++ ["mov cx, bx"])

/-- R100: ImmToRegMem from its bytes, the displacement before the data. -/
def Obligations.ImmToRegMemFromBytes : Prop :=
  ∀ (s : State) (op : Byte), s.st = .scanning → s.streamRead s.cur = .ok op → op &&& 0xFE = 0xC6 →
    let w := Pseudocode.bit op 0
    (∀ n, s.streamRead (s.cur + 1) = .error (.truncated n) →
      step s = .next (Pseudocode.stopped s (.decode (.truncated n)))) ∧
    (∀ m, s.streamRead (s.cur + 1) = .ok m →
      let mod := Pseudocode.bits m 7 6
      let rm := Pseudocode.bits m 2 0
      (∀ n, Pseudocode.resolve s.streamRead mod rm w (s.cur + 2) = .error (.truncated n) →
        step s = .next (Pseudocode.stopped s (.decode (.truncated n)))) ∧
      (∀ dst p, Pseudocode.resolve s.streamRead mod rm w (s.cur + 2) = .ok (dst, p) →
        p = s.cur + 2 + Pseudocode.dispLen mod rm ∧
        (∀ n, Pseudocode.readImmediate s.streamRead w p = .error (.truncated n) →
          step s = .next (Pseudocode.stopped s (.decode (.truncated n)))) ∧
        (∀ src q, Pseudocode.readImmediate s.streamRead w p = .ok (src, q) →
          q = p + (if w then 2 else 1) ∧
          step s = .next (Pseudocode.committed s
            { leadAt := s.cur, len := q - s.cur, variant := .ImmToRegMem,
              fields := Pseudocode.modRmFields none (some w) m, dst := dst, src := src } q)))) ∧
    (op = 0xC6 → s.streamRead (s.cur + 1) = .ok 0x40 → s.streamRead (s.cur + 2) = .ok 0x04 →
      s.streamRead (s.cur + 3) = .ok 0x1D →
      ∃ t, step s = .next t ∧ t.out = s.out ++ ["mov [bx + si + 4], byte 29"])

/-- R110: ImmToReg from its bytes. -/
def Obligations.ImmToRegFromBytes : Prop :=
  ∀ (s : State) (op : Byte), s.st = .scanning → s.streamRead s.cur = .ok op → op &&& 0xF0 = 0xB0 →
    let w := Pseudocode.bit op 3
    let reg := BitVec.ofNat 3 (Pseudocode.bits op 2 0)
    (∀ n, Pseudocode.readImmediate s.streamRead w (s.cur + 1) = .error (.truncated n) →
      step s = .next (Pseudocode.stopped s (.decode (.truncated n)))) ∧
    (∀ src q, Pseudocode.readImmediate s.streamRead w (s.cur + 1) = .ok (src, q) →
      q = s.cur + 1 + (if w then 2 else 1) ∧
      step s = .next (Pseudocode.committed s
        { leadAt := s.cur, len := q - s.cur, variant := .ImmToReg, fields := { w := some w, reg := some reg },
          dst := .register (regName reg w), src := src } q)) ∧
    (op = 0xB8 → s.streamRead (s.cur + 1) = .ok 0x09 → s.streamRead (s.cur + 2) = .ok 0x00 →
      ∃ t, step s = .next t ∧ t.out = s.out ++ ["mov ax, 9"])

/-- MemToAcc and AccToMem from their bytes (R120, R121): two address bytes whatever w is, and TruncatedInstruction where one
is missing. The address's byte order is the spec's own decision (92_eei_decisions.md D3; assumption log 9). -/
def Obligations.AccumulatorFormsFromBytes : Prop :=
  ∀ (s : State) (op : Byte), s.st = .scanning → s.streamRead s.cur = .ok op →
    op &&& 0xFE = 0xA0 ∨ op &&& 0xFE = 0xA2 →
    let w := Pseudocode.bit op 0
    let acc := Operand.register (accName s.params w)
    (∀ n, s.streamRead (s.cur + 1) = .error (.truncated n) →
      step s = .next (Pseudocode.stopped s (.decode (.truncated n)))) ∧
    (∀ lo, s.streamRead (s.cur + 1) = .ok lo →
      (∀ n, s.streamRead (s.cur + 2) = .error (.truncated n) →
        step s = .next (Pseudocode.stopped s (.decode (.truncated n)))) ∧
      (∀ hi, s.streamRead (s.cur + 2) = .ok hi →
        let memOp := Operand.memory (.direct (lo.toNat + 256 * hi.toNat))
        (op &&& 0xFE = 0xA0 → step s = .next (Pseudocode.committed s
          { leadAt := s.cur, len := 3, variant := .MemToAcc, fields := { w := some w }, dst := acc, src := memOp }
          (s.cur + 3))) ∧
        (op &&& 0xFE = 0xA2 → step s = .next (Pseudocode.committed s
          { leadAt := s.cur, len := 3, variant := .AccToMem, fields := { w := some w }, dst := memOp, src := acc }
          (s.cur + 3))) ∧
        (op = 0xA1 → lo = 0xFB → hi = 0x09 → ∃ t, step s = .next t ∧ t.out = s.out ++ ["mov ax, [2555]"]) ∧
        (op = 0xA3 → lo = 0xFA → hi = 0x09 → ∃ t, step s = .next t ∧ t.out = s.out ++ ["mov [2554], ax"])))

/-- A segment form's lead byte ends the run (R130, R131), whatever follows it and even when nothing does; and no other byte
ends it with UnhandledVariant. That no further byte is read is the spec's own decision (92_eei_decisions.md D7: "Only the
lead byte is read"; assumption log 13). -/
def Obligations.SegmentLeadByteStopsTheRun : Prop :=
  ∀ (s : State) (op : Byte), s.st = .scanning → s.streamRead s.cur = .ok op →
    let info : TermInfo := { reason := .unhandledVariant, leadAt := s.cur, byte := some op, need := none }
    (op = 0x8E → step s = .next { s with
      st := .terminated .unhandledVariant, term := some info, notice := some .RegMemToSeg }) ∧
    (op = 0x8C → step s = .next { s with
      st := .terminated .unhandledVariant, term := some info, notice := some .SegToRegMem }) ∧
    (∀ t, step s = .next t → t.st = .terminated .unhandledVariant → op = 0x8E ∨ op = 0x8C)

/-- R101: the reg field of ImmToRegMem has no effect on the line, the length or the verdict: two streams that differ in
it alone give the same outputs, but for the record's own reg field. -/
def Obligations.ImmToRegMemIgnoresTheRegField : Prop :=
  ∀ (s u : State) (op m m' : Byte), s.st = .scanning → u.st = .scanning → u.cur = s.cur → u.L = s.L →
    u.out = s.out → u.notice = s.notice → u.term = s.term → u.recs = s.recs →
    s.streamRead s.cur = .ok op → op &&& 0xFE = 0xC6 →
    s.streamRead (s.cur + 1) = .ok m → u.streamRead (s.cur + 1) = .ok m' →
    Pseudocode.bits m' 7 6 = Pseudocode.bits m 7 6 → Pseudocode.bits m' 2 0 = Pseudocode.bits m 2 0 →
    (∀ k, k ≠ s.cur + 1 → u.streamRead k = s.streamRead k) →
      ∃ t v, step s = .next t ∧ step u = .next v ∧ v.out = t.out ∧ v.cur = t.cur ∧ v.st = t.st ∧ v.term = t.term ∧
        v.notice = t.notice ∧
        ∀ r, t.recs = s.recs ++ [r] →
          v.recs = s.recs ++
            [{ r with fields := { r.fields with reg := some (BitVec.ofNat 3 (Pseudocode.bits m' 5 3)) } }]

/-! ## Truncation -/

/-- R93: where a RegMemToFromReg is truncated. -/
def Obligations.RegMemToFromRegTruncation : Prop :=
  ∀ (s : State) (op : Byte), s.st = .scanning → s.streamRead s.cur = .ok op → op &&& 0xFC = 0x88 →
    (s.L ≤ s.cur + 1 → step s = .next (Pseudocode.stopped s (.decode (.truncated (s.cur + 1))))) ∧
    (∀ m, s.streamRead (s.cur + 1) = .ok m →
      (Pseudocode.bits m 7 6 = 1 → s.L ≤ s.cur + 2 →
        step s = .next (Pseudocode.stopped s (.decode (.truncated (s.cur + 2))))) ∧
      (Pseudocode.bits m 7 6 = 2 ∨ (Pseudocode.bits m 7 6 = 0 ∧ Pseudocode.bits m 2 0 = 6) →
        (s.L ≤ s.cur + 2 → step s = .next (Pseudocode.stopped s (.decode (.truncated (s.cur + 2))))) ∧
        (s.cur + 3 = s.L → step s = .next (Pseudocode.stopped s (.decode (.truncated (s.cur + 3)))))))

/-- R104: where an ImmToRegMem is truncated. `k` is the distance to the low data byte. -/
def Obligations.ImmToRegMemTruncation : Prop :=
  ∀ (s : State) (op : Byte), s.st = .scanning → s.streamRead s.cur = .ok op → op &&& 0xFE = 0xC6 →
    (s.L ≤ s.cur + 1 → step s = .next (Pseudocode.stopped s (.decode (.truncated (s.cur + 1))))) ∧
    (∀ m, s.streamRead (s.cur + 1) = .ok m →
      let n := Pseudocode.dispLen (Pseudocode.bits m 7 6) (Pseudocode.bits m 2 0)
      let k := 2 + n
      (∀ j < n, s.L ≤ s.cur + 2 + j → (∀ i < j, s.cur + 2 + i < s.L) →
        step s = .next (Pseudocode.stopped s (.decode (.truncated (s.cur + 2 + j))))) ∧
      ((∀ j < n, s.cur + 2 + j < s.L) → s.L ≤ s.cur + k →
        step s = .next (Pseudocode.stopped s (.decode (.truncated (s.cur + k))))) ∧
      (Pseudocode.bit op 0 = true → s.cur + k + 1 = s.L →
        step s = .next (Pseudocode.stopped s (.decode (.truncated (s.cur + k + 1))))))

/-- Where an ImmToReg (R113) or an accumulator form is truncated, and the accumulator forms' other corners: the address is
unsigned, and the w bit never changes the length. The accumulator forms' corners are the spec's own inference
(45_mov_acc.md R123, "derived: from rules R120 to R122 and 41_operands.md rule R81"). -/
def Obligations.ImmToRegAndAccumulatorCorners : Prop :=
  ∀ (s : State) (op : Byte), s.st = .scanning → s.streamRead s.cur = .ok op →
    (op &&& 0xF0 = 0xB0 →
      (s.L ≤ s.cur + 1 → step s = .next (Pseudocode.stopped s (.decode (.truncated (s.cur + 1))))) ∧
      (Pseudocode.bit op 3 = true → s.cur + 2 = s.L →
        step s = .next (Pseudocode.stopped s (.decode (.truncated (s.cur + 2)))))) ∧
    (op &&& 0xFE = 0xA0 ∨ op &&& 0xFE = 0xA2 →
      (s.L ≤ s.cur + 1 → step s = .next (Pseudocode.stopped s (.decode (.truncated (s.cur + 1))))) ∧
      (s.cur + 2 = s.L → step s = .next (Pseudocode.stopped s (.decode (.truncated (s.cur + 2))))) ∧
      (∀ lo hi, s.streamRead (s.cur + 1) = .ok lo → s.streamRead (s.cur + 2) = .ok hi →
        ∃ t r, step s = .next t ∧ t.cur = s.cur + 3 ∧ t.recs = s.recs ++ [r] ∧
          (r.dst = .memory (.direct (lo.toNat + 256 * hi.toNat)) ∨
            r.src = .memory (.direct (lo.toNat + 256 * hi.toNat))) ∧
          (lo = 0xFF → hi = 0xFF → memText (.direct (lo.toNat + 256 * hi.toNat)) = "[65535]") ∧
          (lo = 0 → hi = 0 → memText (.direct (lo.toNat + 256 * hi.toNat)) = "[0]") ∧
          (op = 0xA0 → s.params = Config.Params.default → lo = 0x10 → hi = 0 →
            t.out = s.out ++ ["mov ax, [16]"])))

/-! ## Errors and termination -/

/-- R60: a step is enabled only while scanning; at the end of the stream it writes `st` and `term` and nothing else;
before the end it performs `DecodeOne`, and commits what that returns or terminates with what it raises. -/
def Obligations.StepIsEnabledOnlyWhileScanning : Prop :=
  ∀ s : State,
    (s.st ≠ .scanning → ∀ t, step s ≠ .next t) ∧
    (s.st = .scanning → s.cur = s.L → step s = .next { s with
      st := .terminated .exhausted
      term := some { reason := .exhausted, leadAt := s.L, byte := none, need := none } }) ∧
    (s.st = .scanning → s.cur < s.L →
      (∃ r q, Pseudocode.decodeOne s.params s.streamRead s.cur = .ok (r, q) ∧
        step s = .next (Pseudocode.committed s r q)) ∨
      ∃ e, Pseudocode.decodeOne s.params s.streamRead s.cur = .error e ∧ step s = .next (Pseudocode.stopped s e))

/-- A step that goes on scanning wrote one record, the record's line and the cursor (R62), and nothing else; the record
and the cursor are those of `DecodeOne`. That the three writes are one atomic transition is the spec's own decision
(92_eei_decisions.md D13; assumption log 15). -/
def Obligations.CommitWritesRecordLineAndCursor : Prop :=
  ∀ s t : State, step s = .next t → t.st = .scanning →
    ∃ r, Pseudocode.decodeOne s.params s.streamRead s.cur = .ok (r, s.cur + r.len) ∧ r.leadAt = s.cur ∧
      t = { s with recs := s.recs ++ [r], out := s.out ++ [render r], cur := s.cur + r.len }

/-- A lead byte that matches no row raises UnsupportedOpcode (R141), and only such a byte does. That this ends the run is
the spec's own decision (92_eei_decisions.md D12: "The block terminates with `Error(UnsupportedOpcode)`"; assumption log
16). -/
def Obligations.UnsupportedLeadByteStopsTheRun : Prop :=
  ∀ (s : State) (op : Byte), s.st = .scanning → s.streamRead s.cur = .ok op →
    ((∀ r ∈ patternTable, op &&& r.mask ≠ r.expected) → step s = .next { s with
      st := .terminated (.error .unsupportedOpcode)
      term := some
        { reason := .error .unsupportedOpcode, leadAt := s.cur, byte := some op, need := none } }) ∧
    (∀ t, step s = .next t → t.st = .terminated (.error .unsupportedOpcode) →
      ∀ r ∈ patternTable, op &&& r.mask ≠ r.expected)

/-- Which reason ends a step, in order; and the `need` of a truncation is exactly `L`. It is the spec's own inference
(60_exceptions.md R144, "derived: from 40_decode_loop.md rule R61 and 20_memory.md rules R30 and R31"). -/
def Obligations.TerminationPriority : Prop :=
  ∀ s t : State, s.cur ≤ s.L → step s = .next t →
    (s.cur = s.L → t.st = .terminated .exhausted) ∧
    (∀ op, s.streamRead s.cur = .ok op →
      (classify op = none → t.st = .terminated (.error .unsupportedOpcode)) ∧
      (∀ v, classify op = some v → isSegmentForm v = true → t.st = .terminated .unhandledVariant) ∧
      (∀ v, classify op = some v → isSegmentForm v = false →
        t.st = .scanning ∨ t.st = .terminated (.error .truncatedInstruction))) ∧
    (t.st = .terminated (.error .truncatedInstruction) → ∃ info, t.term = some info ∧ info.need = some s.L)

/-- R145: every stop is precise. Only `st`, `term` and, for UnhandledVariant, `notice` change, and `term` names the
lead byte's offset. -/
def Obligations.StopsArePrecise : Prop :=
  ∀ (s t : State) (reason : Reason), step s = .next t → t.st = .terminated reason →
    t = { s with st := .terminated reason, term := t.term, notice := t.notice } ∧
    (∃ info, t.term = some info ∧ info.reason = reason ∧ info.leadAt = s.cur ∧
      (s.cur < s.L → info.byte = some (s.B.read s.cur))) ∧
    (reason ≠ .unhandledVariant → t.notice = s.notice) ∧
    (reason = .unhandledVariant → ∃ v, t.notice = some v ∧ classify (s.B.read s.cur) = some v)

/-- The codes of the reasons, and what `term` records for each when a step ends the run. Codes and fields are the spec's own
decision (60_exceptions.md R140, 92_eei_decisions.md D9; assumption log 17). -/
def Obligations.ReasonCodesAndRecords : Prop :=
  ∀ (s t : State) (info : TermInfo), s.cur ≤ s.L → s.term = none → step s = .next t → t.term = some info →
    t.st = .terminated info.reason ∧
    (info.reason = .exhausted ↔ info.reason.code = 0) ∧
    (info.reason = .error .unsupportedOpcode ↔ info.reason.code = 1) ∧
    (info.reason = .error .truncatedInstruction ↔ info.reason.code = 2) ∧
    (info.reason = .unhandledVariant ↔ info.reason.code = 3) ∧
    (info.reason.isError = true ↔ info.reason.code = 1 ∨ info.reason.code = 2) ∧
    (info.reason.code = 0 → info.leadAt = s.L ∧ s.cur = s.L) ∧
    (info.reason.code ≠ 0 → info.leadAt = s.cur ∧ info.byte = some (s.B.read s.cur)) ∧
    (info.reason.code = 2 → ∃ n, info.need = some n ∧ s.L ≤ n) ∧
    (info.reason.code = 3 →
      (info.byte = some 0x8E ∧ t.notice = some .RegMemToSeg) ∨ (info.byte = some 0x8C ∧ t.notice = some .SegToRegMem))

/-- No step leaves `Terminated`, however many are asked for (R146); reset does, over any stream the caller chooses, which
is the spec's own decision (92_eei_decisions.md D12; assumption log 16). -/
def Obligations.TerminatedIsLeftOnlyByReset : Prop :=
  ∀ (s : State) (reason : Reason), s.st = .terminated reason →
    (∀ k t, run k s = .next t → t = s) ∧ (∀ t, step s ≠ .next t) ∧
    ∀ bytes params, (s.supply bytes params).applyReset = State.startOver bytes params ∧
      (State.startOver bytes params).st = .scanning

/-- The notice is set by a segment form alone, to its variant (R14); its text is `SEG_NOTICE` and is no line of `out`, which
is the spec's own decision (92_eei_decisions.md D8; assumption log 3); reset clears it. -/
def Obligations.NoticeNamesTheSegmentForm : Prop :=
  ∀ s t : State, step s = .next t →
    (s.streamRead s.cur = .ok 0x8E →
      t.notice = some .RegMemToSeg ∧ t.noticeText = some Config.segNotice ∧ t.out = s.out) ∧
    (s.streamRead s.cur = .ok 0x8C →
      t.notice = some .SegToRegMem ∧ t.noticeText = some Config.segNotice ∧ t.out = s.out) ∧
    (s.streamRead s.cur ≠ .ok 0x8E → s.streamRead s.cur ≠ .ok 0x8C → t.notice = s.notice) ∧
    t.applyReset.notice = none ∧ t.applyReset.noticeText = none

/-- `out` and `recs` are append-only, one line for each record, the line its rendering; a failed instruction appends
nothing (R13). -/
def Obligations.OutputsAppendOneLinePerRecord : Prop :=
  ∀ s t : State, step s = .next t →
    (s.out = s.recs.map render → t.out = t.recs.map render) ∧
    ((t.st = .scanning ∧ ∃ r, t.recs = s.recs ++ [r] ∧ t.out = s.out ++ [render r]) ∨
      (t.st ≠ .scanning ∧ t.recs = s.recs ∧ t.out = s.out)) ∧
    s.applyReset.out = [] ∧ s.applyReset.recs = []

/-! ## Reset and runs -/

/-- R160: reset puts every persistent element in its reset value, whatever stood before, and nothing of an earlier run
survives. -/
def Obligations.ResetPutsEveryElement : Prop :=
  (∀ s : State, s.applyReset.cur = 0 ∧ s.applyReset.st = .scanning ∧ s.applyReset.out = [] ∧
    s.applyReset.recs = [] ∧ s.applyReset.notice = none ∧ s.applyReset.term = none) ∧
  (∀ s u : State, u.B = s.B → u.L = s.L → u.params = s.params → u.applyReset = s.applyReset) ∧
  (∀ s : State, (∃ reason, s.st = .terminated reason) → ∀ t, step s ≠ .next t) ∧
  (State.reset.cur = 0 ∧ State.reset.st = .scanning ∧ State.reset.out = [] ∧ State.reset.recs = [] ∧
    State.reset.notice = none ∧ State.reset.term = none)

/-- R161: reset leaves the stream and the parameters, and they hold for the whole run that follows. -/
def Obligations.ResetKeepsTheStreamForTheRun : Prop :=
  ∀ (s : State) (k : Nat) (t : State), run k s.applyReset = .next t →
    t.B = s.B ∧ t.L = s.L ∧ t.params = s.params ∧ ∀ a, t.streamRead a = s.streamRead a

/-- R66: the step is total while scanning, and two runs from reset over the same stream and parameters agree at every
step, whatever stood before. -/
def Obligations.RunsFromResetAreDeterministic : Prop :=
  (∀ s : State, s.st = .scanning → ∃ t, step s = .next t) ∧
  (∀ (s u : State) (k : Nat), u.B = s.B → u.L = s.L → u.params = s.params →
    run k u.applyReset = run k s.applyReset)

/-- The invariant holds after reset over any stream in canonical form: over the empty one of `State.reset`, and over any
the caller supplies. -/
def Obligations.InvariantHoldsAfterReset : Prop :=
  State.reset.Inv ∧ (∀ s : State, s.streamWf → s.applyReset.Inv) ∧
  ∀ bytes params, (State.startOver bytes params).Inv

/-- Every step keeps the invariant: the canonical stream, the cursor's range, one line for each record, records that are
the decoding of the bytes before the cursor, and agreement of `st`, `term` and `notice`. -/
def Obligations.InvariantIsKeptByEveryStep : Prop :=
  ∀ s t : State, s.Inv → step s = .next t → t.Inv

/-- `cur ≤ L` is invariant, the cursor never decreases, and it passes only bytes that are there. It is the spec's own
inference (40_decode_loop.md R65, "derived: from 20_memory.md rule R30 and rule R62"). -/
def Obligations.CursorStaysInTheStream : Prop :=
  (∀ s : State, s.applyReset.cur = 0) ∧
  ∀ s t : State, s.cur ≤ s.L → step s = .next t →
    t.cur ≤ t.L ∧ s.cur ≤ t.cur ∧ ∀ k, s.cur ≤ k → k < t.cur → ∃ b, s.streamRead k = .ok b

/-- A stream that a hardware build can hold keeps its cursor inside `OFFSET_BITS` bits (R6). `OFFSET_BITS` is a constant
with no value, so the statement holds whatever it is. -/
def Obligations.CursorFitsTheBuild : Prop :=
  ∀ s t : State, s.fitsBuild → s.cur ≤ s.L → step s = .next t → t.fitsBuild ∧ t.cur < 2 ^ Config.offsetBits

/-- The records of a run: their lengths, places, operand ranges (R18, R19) and which fields each variant carries
(R46). -/
def Obligations.RecordsAreInRange : Prop :=
  ∀ s : State, s.Inv → ∀ r ∈ s.recs,
    2 ≤ r.len ∧ r.len ≤ 6 ∧ r.leadAt + r.len ≤ s.cur ∧ r.dst.inRange ∧ r.src.inRange ∧
    isSegmentForm r.variant = false ∧ classify (s.B.read r.leadAt) = some r.variant ∧
    (r.fields.d.isSome = true ↔ r.variant = .RegMemToFromReg) ∧ r.fields.w.isSome = true ∧
    (r.fields.mod.isSome = true ↔ r.variant = .RegMemToFromReg ∨ r.variant = .ImmToRegMem) ∧
    (r.fields.rm.isSome = true ↔ r.variant = .RegMemToFromReg ∨ r.variant = .ImmToRegMem) ∧
    (r.fields.reg.isSome = true ↔
      r.variant = .RegMemToFromReg ∨ r.variant = .ImmToRegMem ∨ r.variant = .ImmToReg)

/-- The clean end (R68): when a run ends Exhausted, the records' bytes, one after another, are the whole stream: every byte
was decoded into exactly one line. -/
def Obligations.ExhaustedRunDecodesEveryByte : Prop :=
  ∀ s : State, s.Inv → s.st = .terminated .exhausted →
    s.out.length = s.recs.length ∧
    s.recs.flatMap (fun r => (List.range r.len).map (fun k => s.B.read (r.leadAt + k))) =
      (List.range s.L).map s.B.read

/-- Every run reaches `Terminated`, from reset after at most L/2 + 1 steps, and goes no further; every committing step
advances the cursor by at least 2. It is the spec's own inference (40_decode_loop.md R64, "derived: from rule R60, rule
R62 and 30_encoding.md rule R48"). -/
def Obligations.EveryRunTerminates : Prop :=
  (∀ s t : State, step s = .next t → t.st = .scanning → s.cur + 2 ≤ t.cur) ∧
  ∀ s : State, s.st = .scanning → s.cur ≤ s.L →
    ∃ k t reason, k ≤ (s.L - s.cur) / 2 + 1 ∧ run k s = .next t ∧ t.st = .terminated reason ∧ t.cur ≤ t.L ∧
      ∀ j u, k < j → run j s ≠ .next u

/-- The machine's step, which decodes to `Instr` and dispatches on it, is the spec's pseudocode, which works on bytes. -/
def Obligations.StepIsTheSpecsPseudocode : Prop :=
  ∀ s : State, s.st = .scanning → s.cur ≤ s.L → step s = .next (Pseudocode.step s)

/-- What a step decodes does not depend on where in the stream the instruction stands or on what was
decoded before it: two states whose streams agree from their cursors to their ends give the same outcome, moved. A segment
form gives both the same notice, and any other step leaves both notices. It is the spec's own inference (20_memory.md R33
and 30_encoding.md R51, both marked "derived"). -/
def Obligations.DecodingIgnoresPlaceAndHistory : Prop :=
  ∀ s u t : State, s.st = .scanning → u.st = .scanning → u.params = s.params → s.cur ≤ s.L →
    u.L = u.cur + (s.L - s.cur) →
    (∀ k, s.cur + k < s.L → u.streamRead (u.cur + k) = s.streamRead (s.cur + k)) →
    step s = .next t →
      ∃ v, step u = .next v ∧ v.st = t.st ∧ v.cur + s.cur = t.cur + u.cur ∧
        (∀ r, t.recs = s.recs ++ [r] →
          v.recs = u.recs ++ [{ r with leadAt := u.cur }] ∧ v.out = u.out ++ [render r]) ∧
        (t.recs = s.recs → v.recs = u.recs ∧ v.out = u.out) ∧
        (t.st = .terminated .unhandledVariant → t.notice ≠ none ∧ v.notice = t.notice) ∧
        (t.st ≠ .terminated .unhandledVariant → t.notice = s.notice ∧ v.notice = u.notice) ∧
        (t.st = .scanning → t.term = s.term ∧ v.term = u.term) ∧
        (t.st ≠ .scanning → ∀ info, t.term = some info → v.term = some
          { info with leadAt := u.cur, need := info.need.map (fun n => n - s.cur + u.cur) })
end

