-- ==== Sys2Proof/Laws/Decode.lean ====
section
/-! SUPPORT. The decoder and the encoder: what each procedure of the decoder read when it answers, what the encoder's
bytes classify and slice as, and how many bytes there are. -/

namespace Sys2Proof

/-! ## Lead bytes and ModRM bytes -/

theorem classify_leadRegMemToFromReg : ∀ d w : Bool,
    classify (0b100010#6 ++ BitVec.ofBool d ++ BitVec.ofBool w : BitVec 8) = some .RegMemToFromReg := by decide
theorem classify_leadImmToRegMem : ∀ w : Bool,
    classify (0b1100011#7 ++ BitVec.ofBool w : BitVec 8) = some .ImmToRegMem := by decide
theorem classify_leadImmToReg : ∀ (w : Bool) (r : BitVec 3),
    classify (0b1011#4 ++ BitVec.ofBool w ++ r : BitVec 8) = some .ImmToReg := by decide
theorem classify_leadMemToAcc : ∀ w : Bool,
    classify (0b1010000#7 ++ BitVec.ofBool w : BitVec 8) = some .MemToAcc := by decide
theorem classify_leadAccToMem : ∀ w : Bool,
    classify (0b1010001#7 ++ BitVec.ofBool w : BitVec 8) = some .AccToMem := by decide

theorem dBit_leadRegMemToFromReg : ∀ d w : Bool,
    dBit (0b100010#6 ++ BitVec.ofBool d ++ BitVec.ofBool w : BitVec 8) = d := by decide
theorem wBit_leadRegMemToFromReg : ∀ d w : Bool,
    wBit (0b100010#6 ++ BitVec.ofBool d ++ BitVec.ofBool w : BitVec 8) = w := by decide
theorem wBit_leadImmToRegMem : ∀ w : Bool, wBit (0b1100011#7 ++ BitVec.ofBool w : BitVec 8) = w := by decide
theorem wImmBit_leadImmToReg : ∀ (w : Bool) (r : BitVec 3),
    wImmBit (0b1011#4 ++ BitVec.ofBool w ++ r : BitVec 8) = w := by decide
theorem regImmField_leadImmToReg : ∀ (w : Bool) (r : BitVec 3),
    regImmField (0b1011#4 ++ BitVec.ofBool w ++ r : BitVec 8) = r := by decide
theorem wBit_leadMemToAcc : ∀ w : Bool, wBit (0b1010000#7 ++ BitVec.ofBool w : BitVec 8) = w := by decide
theorem wBit_leadAccToMem : ∀ w : Bool, wBit (0b1010001#7 ++ BitVec.ofBool w : BitVec 8) = w := by decide

/-- A lead byte of class RegMemToFromReg is its d and w bits in the row's pattern (R41). -/
theorem lead_of_classify_regMemToFromReg : ∀ op : Byte, classify op = some .RegMemToFromReg →
    op = (0b100010#6 ++ BitVec.ofBool (dBit op) ++ BitVec.ofBool (wBit op) : BitVec 8) := by decide
/-- A lead byte of class ImmToRegMem is its w bit in the row's pattern (R41). -/
theorem lead_of_classify_immToRegMem : ∀ op : Byte, classify op = some .ImmToRegMem →
    op = (0b1100011#7 ++ BitVec.ofBool (wBit op) : BitVec 8) := by decide
/-- A lead byte of class ImmToReg is its w and reg fields in the row's pattern (R41). -/
theorem lead_of_classify_immToReg : ∀ op : Byte, classify op = some .ImmToReg →
    op = (0b1011#4 ++ BitVec.ofBool (wImmBit op) ++ regImmField op : BitVec 8) := by decide
/-- A lead byte of class MemToAcc is its w bit in the row's pattern (R41). -/
theorem lead_of_classify_memToAcc : ∀ op : Byte, classify op = some .MemToAcc →
    op = (0b1010000#7 ++ BitVec.ofBool (wBit op) : BitVec 8) := by decide
/-- A lead byte of class AccToMem is its w bit in the row's pattern (R41). -/
theorem lead_of_classify_accToMem : ∀ op : Byte, classify op = some .AccToMem →
    op = (0b1010001#7 ++ BitVec.ofBool (wBit op) : BitVec 8) := by decide
/-- The one lead byte of class RegMemToSeg (R41). -/
theorem lead_of_classify_regMemToSeg : ∀ op : Byte, classify op = some .RegMemToSeg → op = 0x8E := by decide
/-- The one lead byte of class SegToRegMem (R41). -/
theorem lead_of_classify_segToRegMem : ∀ op : Byte, classify op = some .SegToRegMem → op = 0x8C := by decide

theorem modField_append : ∀ (m : BitVec 2) (r x : BitVec 3), modField (m ++ r ++ x : BitVec 8) = m := by decide
theorem regField_append : ∀ (m : BitVec 2) (r x : BitVec 3), regField (m ++ r ++ x : BitVec 8) = r := by decide
theorem rmField_append : ∀ (m : BitVec 2) (r x : BitVec 3), rmField (m ++ r ++ x : BitVec 8) = x := by decide
/-- A ModRM byte is its three fields. -/
theorem modRm_fields : ∀ m : Byte, (modField m ++ regField m ++ rmField m : BitVec 8) = m := by decide

@[simp] theorem modField_modRmByte (reg : BitVec 3) (rm : RmForm) : modField (modRmByte reg rm) = rm.modValue :=
  modField_append _ _ _
@[simp] theorem regField_modRmByte (reg : BitVec 3) (rm : RmForm) : regField (modRmByte reg rm) = reg :=
  regField_append _ _ _
@[simp] theorem rmField_modRmByte (reg : BitVec 3) (rm : RmForm) : rmField (modRmByte reg rm) = rm.rmValue :=
  rmField_append _ _ _

@[simp] theorem baseOfRm_rmValue (b : BaseExpr) : baseOfRm b.rmValue = b := by cases b <;> decide
@[simp] theorem rmValue_baseOfRm : ∀ rm : BitVec 3, (baseOfRm rm).rmValue = rm := by decide

/-! ## Byte order -/

theorem u16le_lt (lo hi : Byte) : u16le lo hi < 2 ^ 16 := by
  have hlo := lo.isLt
  have hhi := hi.isLt
  refine Nat.or_lt_two_pow (by omega) ?_
  rw [Nat.shiftLeft_eq]; omega

/-- The field's bits are the high byte's and then the low byte's (R32). -/
theorem wordLe_eq_append (lo hi : Byte) : wordLe lo hi = (hi ++ lo : BitVec 16) := by
  apply BitVec.eq_of_toNat_eq
  rw [wordLe, BitVec.toNat_ofNat, Nat.mod_eq_of_lt (u16le_lt lo hi), BitVec.toNat_append, u16le, Nat.or_comm]

@[simp] theorem wordLe_toNat (lo hi : Byte) : (wordLe lo hi).toNat = u16le lo hi := by
  rw [wordLe, BitVec.toNat_ofNat, Nat.mod_eq_of_lt (u16le_lt lo hi)]

@[simp] theorem lo_wordLe (lo hi : Byte) : Word.lo (wordLe lo hi) = lo := by
  rw [wordLe_eq_append]; ext i hi'
  simp only [Word.lo, BitVec.getElem_extractLsb', BitVec.getLsbD_append]
  rw [if_pos (by omega)]; simp [hi']

@[simp] theorem hi_wordLe (lo hi : Byte) : Word.hi (wordLe lo hi) = hi := by
  rw [wordLe_eq_append]; ext i hi'
  simp only [Word.hi, BitVec.getElem_extractLsb', BitVec.getLsbD_append]
  rw [if_neg (by omega)]; simp [hi']

@[simp] theorem wordLe_lo_hi (v : Word) : wordLe (Word.lo v) (Word.hi v) = v := by
  rw [wordLe_eq_append]; ext i hi'
  rw [BitVec.getElem_append]
  split
  · simp [Word.lo, BitVec.getLsbD_eq_getElem hi']
  · next h => simp [Word.hi, show 8 + (i - 8) = i from by omega, BitVec.getLsbD_eq_getElem hi']

/-! ## What each procedure read -/

theorem readWordLe_eq_ok {read : ByteReader} {p q : Nat} {v : Word} :
    readWordLe read p = .ok (v, q) ↔
      ∃ lo hi, read p = .ok lo ∧ read (p + 1) = .ok hi ∧ v = wordLe lo hi ∧ q = p + 2 := by
  unfold readWordLe
  rcases read p with e | lo
  · simp [bind, Except.bind]
  · rcases read (p + 1) with e | hi
    · simp [bind, Except.bind]
    · simp [bind, Except.bind, pure, Except.pure, eq_comm]

theorem readWordLe_eq_error {read : ByteReader} {p : Nat} {e : DecodeError} :
    readWordLe read p = .error e ↔ read p = .error e ∨ ∃ lo, read p = .ok lo ∧ read (p + 1) = .error e := by
  unfold readWordLe
  rcases read p with e' | lo
  · simp [bind, Except.bind]
  · rcases read (p + 1) with e' | hi
    · simp [bind, Except.bind]
    · simp [bind, Except.bind, pure, Except.pure]

theorem readImmData_eq_ok {read : ByteReader} {w : Bool} {p q : Nat} {imm : ImmData} :
    readImmData read w p = .ok (imm, q) ↔
      (w = false ∧ ∃ b, read p = .ok b ∧ imm = .byte b ∧ q = p + 1) ∨
      (w = true ∧ ∃ v, readWordLe read p = .ok (v, q) ∧ imm = .word v) := by
  cases w
  · unfold readImmData
    rcases read p with e | b <;> simp [bind, Except.bind, pure, Except.pure, eq_comm]
  · unfold readImmData
    rcases readWordLe read p with e | ⟨v, q'⟩ <;> simp [bind, Except.bind, pure, Except.pure, eq_comm]
    exact and_comm

theorem readImmData_eq_error {read : ByteReader} {w : Bool} {p : Nat} {e : DecodeError} :
    readImmData read w p = .error e ↔
      (w = false ∧ read p = .error e) ∨ (w = true ∧ readWordLe read p = .error e) := by
  cases w
  · unfold readImmData
    rcases read p with e | b <;> simp [bind, Except.bind, pure, Except.pure]
  · unfold readImmData
    rcases readWordLe read p with e | ⟨v, q'⟩ <;> simp [bind, Except.bind, pure, Except.pure]

/-- The four mod values, as the resolver's tests take them apart. -/
theorem mod_cases : ∀ mod : BitVec 2, mod = 0#2 ∨ mod = 1#2 ∨ mod = 2#2 ∨ mod = 3#2 := by decide

/-- What the resolver answers and read, by mod (R73 to R78). -/
theorem readRmForm_eq_ok {read : ByteReader} {mod : BitVec 2} {rm : BitVec 3} {p q : Nat} {f : RmForm} :
    readRmForm read mod rm p = .ok (f, q) ↔
      (mod = 3#2 ∧ f = .register rm ∧ q = p) ∨
      (mod = 0#2 ∧ rm ≠ 6#3 ∧ f = .baseOnly (baseOfRm rm) ∧ q = p) ∨
      (mod = 0#2 ∧ rm = 6#3 ∧ ∃ a, readWordLe read p = .ok (a, q) ∧ f = .direct a) ∨
      (mod = 1#2 ∧ ∃ b, read p = .ok b ∧ f = .disp8 (baseOfRm rm) b ∧ q = p + 1) ∨
      (mod = 2#2 ∧ ∃ d, readWordLe read p = .ok (d, q) ∧ f = .disp16 (baseOfRm rm) d) := by
  unfold readRmForm
  rcases mod_cases mod with rfl | rfl | rfl | rfl
  · by_cases h : rm = 6#3
    · rcases readWordLe read p with e | ⟨v, q'⟩ <;>
        simp [h, bind, Except.bind, pure, Except.pure, eq_comm]
      exact and_comm
    · simp [h, pure, Except.pure, eq_comm]
  · rcases read p with e | b <;> simp [bind, Except.bind, pure, Except.pure, eq_comm]
  · rcases readWordLe read p with e | ⟨v, q'⟩ <;> simp [bind, Except.bind, pure, Except.pure, eq_comm]
    exact and_comm
  · simp [pure, Except.pure, eq_comm]

/-- When the resolver raises, by mod: at one of the displacement or address bytes. -/
theorem readRmForm_eq_error {read : ByteReader} {mod : BitVec 2} {rm : BitVec 3} {p : Nat} {e : DecodeError} :
    readRmForm read mod rm p = .error e ↔
      (mod = 0#2 ∧ rm = 6#3 ∧ readWordLe read p = .error e) ∨ (mod = 1#2 ∧ read p = .error e) ∨
      (mod = 2#2 ∧ readWordLe read p = .error e) := by
  unfold readRmForm
  rcases mod_cases mod with rfl | rfl | rfl | rfl
  · by_cases h : rm = 6#3
    · rcases readWordLe read p with e | ⟨v, q'⟩ <;> simp [h, bind, Except.bind, pure, Except.pure]
    · simp [h, pure, Except.pure]
  · rcases read p with e | b <;> simp [bind, Except.bind, pure, Except.pure]
  · rcases readWordLe read p with e | ⟨v, q'⟩ <;> simp [bind, Except.bind, pure, Except.pure]
  · simp [pure, Except.pure]

/-- An r/m form that the resolver answers is well formed, carries the fields it was read under, and its bytes stand where
they were read; there are `dispLen` of them (R49). -/
theorem readRmForm_spec {read : ByteReader} {mod : BitVec 2} {rm : BitVec 3} {p q : Nat} {f : RmForm}
    (h : readRmForm read mod rm p = .ok (f, q)) :
    f.wellFormed = true ∧ f.modValue = mod ∧ f.rmValue = rm ∧ q = p + dispLen mod rm ∧
      f.bytes.length = dispLen mod rm ∧ ∀ k (hk : k < f.bytes.length), read (p + k) = .ok f.bytes[k] := by
  rw [readRmForm_eq_ok] at h
  rcases h with ⟨rfl, rfl, rfl⟩ | ⟨rfl, hrm, rfl, rfl⟩ | ⟨rfl, rfl, a, ha, rfl⟩ | ⟨rfl, b, hb, rfl, rfl⟩ |
    ⟨rfl, d, hd, rfl⟩
  · exact ⟨rfl, rfl, rfl, rfl, rfl, fun k hk => absurd hk (Nat.not_lt_zero k)⟩
  · refine ⟨?_, rfl, rmValue_baseOfRm rm, by simp [dispLen, hrm], by simp [dispLen, hrm, RmForm.bytes],
      fun k hk => absurd hk (Nat.not_lt_zero k)⟩
    revert rm; decide
  · obtain ⟨lo, hi, h0, h1, rfl, rfl⟩ := readWordLe_eq_ok.mp ha
    refine ⟨rfl, rfl, rfl, rfl, rfl, fun k hk => ?_⟩
    match k, hk with
    | 0, _ => simpa [RmForm.bytes, wordBytes] using h0
    | 1, _ => simpa [RmForm.bytes, wordBytes] using h1
  · refine ⟨rfl, rfl, rmValue_baseOfRm rm, rfl, rfl, fun k hk => ?_⟩
    match k, hk with
    | 0, _ => simpa [RmForm.bytes] using hb
  · obtain ⟨lo, hi, h0, h1, rfl, rfl⟩ := readWordLe_eq_ok.mp hd
    refine ⟨rfl, rfl, rmValue_baseOfRm rm, rfl, rfl, fun k hk => ?_⟩
    match k, hk with
    | 0, _ => simpa [RmForm.bytes, wordBytes] using h0
    | 1, _ => simpa [RmForm.bytes, wordBytes] using h1

/-- An immediate that the reader answers carries the w it was read under, and its bytes stand where they were read. -/
theorem readImmData_spec {read : ByteReader} {w : Bool} {p q : Nat} {imm : ImmData}
    (h : readImmData read w p = .ok (imm, q)) :
    imm.wBit = w ∧ q = p + imm.length ∧ imm.bytes.length = imm.length ∧
      ∀ k (hk : k < imm.bytes.length), read (p + k) = .ok imm.bytes[k] := by
  rcases readImmData_eq_ok.mp h with ⟨rfl, b, hb, rfl, rfl⟩ | ⟨rfl, v, hv, rfl⟩
  · refine ⟨rfl, rfl, rfl, fun k hk => ?_⟩
    match k, hk with
    | 0, _ => simpa [ImmData.bytes] using hb
  · obtain ⟨lo, hi, h0, h1, rfl, rfl⟩ := readWordLe_eq_ok.mp hv
    refine ⟨rfl, rfl, rfl, fun k hk => ?_⟩
    match k, hk with
    | 0, _ => simpa [ImmData.bytes, wordBytes] using h0
    | 1, _ => simpa [ImmData.bytes, wordBytes] using h1

/-- What the decoder read when it answers an instruction, by variant (R61, R90, R100, R110, R120, R121, R130, R131). -/
theorem decodeOne_ok_cases {read : ByteReader} {start q : Nat} {i : Instr}
    (h : decodeOne read start = .ok (i, q)) :
    ∃ op, read start = .ok op ∧
      ((classify op = some .RegMemToFromReg ∧ ∃ m rm, read (start + 1) = .ok m ∧
          readRmForm read (modField m) (rmField m) (start + 2) = .ok (rm, q) ∧
          i = .regMemToFromReg (dBit op) (wBit op) (regField m) rm) ∨
       (classify op = some .ImmToRegMem ∧ ∃ m rm q' imm, read (start + 1) = .ok m ∧
          readRmForm read (modField m) (rmField m) (start + 2) = .ok (rm, q') ∧
          readImmData read (wBit op) q' = .ok (imm, q) ∧ i = .immToRegMem (regField m) rm imm) ∨
       (classify op = some .ImmToReg ∧ ∃ imm, readImmData read (wImmBit op) (start + 1) = .ok (imm, q) ∧
          i = .immToReg (regImmField op) imm) ∨
       (classify op = some .MemToAcc ∧ ∃ a, readWordLe read (start + 1) = .ok (a, q) ∧ i = .memToAcc (wBit op) a) ∨
       (classify op = some .AccToMem ∧ ∃ a, readWordLe read (start + 1) = .ok (a, q) ∧ i = .accToMem (wBit op) a) ∨
       (classify op = some .RegMemToSeg ∧ i = .regMemToSeg ∧ q = start + 1) ∨
       (classify op = some .SegToRegMem ∧ i = .segToRegMem ∧ q = start + 1)) := by
  unfold decodeOne at h
  rcases hop : read start with e | op
  · simp [hop, bind, Except.bind] at h
  · refine ⟨op, rfl, ?_⟩
    simp only [hop, bind, Except.bind] at h
    rcases hc : classify op with _ | v
    · simp [hc, throw, throwThe, MonadExceptOf.throw] at h
    · cases v <;> simp only [hc] at h ⊢
      · unfold decodeRegMemToFromReg at h
        rcases hm : read (start + 1) with e | m
        · simp [hm, bind, Except.bind] at h
        · rcases hf : readRmForm read (modField m) (rmField m) (start + 2) with e | ⟨rm, q'⟩
          · simp [hm, hf, bind, Except.bind] at h
          · simp [hm, hf, bind, Except.bind, pure, Except.pure] at h
            exact .inl ⟨trivial, m, rm, rfl, by rw [hf, h.2], h.1.symm⟩
      · unfold decodeImmToRegMem at h
        rcases hm : read (start + 1) with e | m
        · simp [hm, bind, Except.bind] at h
        · rcases hf : readRmForm read (modField m) (rmField m) (start + 2) with e | ⟨rm, q'⟩
          · simp [hm, hf, bind, Except.bind] at h
          · rcases hi : readImmData read (wBit op) q' with e | ⟨imm, q''⟩
            · simp [hm, hf, hi, bind, Except.bind] at h
            · simp [hm, hf, hi, bind, Except.bind, pure, Except.pure] at h
              exact .inr (.inl ⟨trivial, m, rm, q', imm, rfl, hf, by rw [hi, h.2], h.1.symm⟩)
      · unfold decodeImmToReg at h
        rcases hi : readImmData read (wImmBit op) (start + 1) with e | ⟨imm, q'⟩
        · simp [hi, bind, Except.bind] at h
        · simp [hi, bind, Except.bind, pure, Except.pure] at h
          exact .inr (.inr (.inl ⟨trivial, imm, by rw [h.2], h.1.symm⟩))
      · unfold decodeMemToAcc at h
        rcases hi : readWordLe read (start + 1) with e | ⟨a, q'⟩
        · simp [hi, bind, Except.bind] at h
        · simp [hi, bind, Except.bind, pure, Except.pure] at h
          exact .inr (.inr (.inr (.inl ⟨trivial, a, by rw [h.2], h.1.symm⟩)))
      · unfold decodeAccToMem at h
        rcases hi : readWordLe read (start + 1) with e | ⟨a, q'⟩
        · simp [hi, bind, Except.bind] at h
        · simp [hi, bind, Except.bind, pure, Except.pure] at h
          exact .inr (.inr (.inr (.inr (.inl ⟨trivial, a, by rw [h.2], h.1.symm⟩))))
      · simp [pure, Except.pure] at h
        exact .inr (.inr (.inr (.inr (.inr (.inl ⟨trivial, h.1.symm, h.2.symm⟩)))))
      · simp [pure, Except.pure] at h
        exact .inr (.inr (.inr (.inr (.inr (.inr ⟨trivial, h.1.symm, h.2.symm⟩)))))

/-- Where the decoder raises (R42, R93, R104, R113, R123): on the lead byte, or at a byte of the instruction that the
stream does not hold. -/
theorem decodeOne_error_cases {read : ByteReader} {start : Nat} {e : DecodeError}
    (h : decodeOne read start = .error e) :
    read start = .error e ∨
    ∃ op, read start = .ok op ∧
      ((classify op = none ∧ e = .unsupportedOpcode op) ∨
       ((classify op = some .RegMemToFromReg ∨ classify op = some .ImmToRegMem) ∧ read (start + 1) = .error e) ∨
       ((classify op = some .RegMemToFromReg ∨ classify op = some .ImmToRegMem) ∧ ∃ m, read (start + 1) = .ok m ∧
          readRmForm read (modField m) (rmField m) (start + 2) = .error e) ∨
       (classify op = some .ImmToRegMem ∧ ∃ m rm q, read (start + 1) = .ok m ∧
          readRmForm read (modField m) (rmField m) (start + 2) = .ok (rm, q) ∧
          readImmData read (wBit op) q = .error e) ∨
       (classify op = some .ImmToReg ∧ readImmData read (wImmBit op) (start + 1) = .error e) ∨
       ((classify op = some .MemToAcc ∨ classify op = some .AccToMem) ∧
          readWordLe read (start + 1) = .error e)) := by
  unfold decodeOne at h
  rcases hop : read start with e' | op
  · left; simpa [hop, bind, Except.bind] using h
  · right
    refine ⟨op, rfl, ?_⟩
    simp only [hop, bind, Except.bind] at h
    rcases hc : classify op with _ | v
    · left; simp [hc, throw, throwThe, MonadExceptOf.throw] at h; exact ⟨rfl, h.symm⟩
    · right
      cases v <;> simp only [hc] at h ⊢
      · unfold decodeRegMemToFromReg at h
        rcases hm : read (start + 1) with e' | m
        · simp [hm, bind, Except.bind] at h; simp [h]
        · rcases hf : readRmForm read (modField m) (rmField m) (start + 2) with e' | ⟨rm, q'⟩
          · simp [hm, hf, bind, Except.bind] at h; simp [hf, h]
          · simp [hm, hf, bind, Except.bind, pure, Except.pure] at h
      · unfold decodeImmToRegMem at h
        rcases hm : read (start + 1) with e' | m
        · simp [hm, bind, Except.bind] at h; simp [h]
        · rcases hf : readRmForm read (modField m) (rmField m) (start + 2) with e' | ⟨rm, q'⟩
          · simp [hm, hf, bind, Except.bind] at h; simp [hf, h]
          · rcases hi : readImmData read (wBit op) q' with e' | ⟨imm, q''⟩
            · simp [hm, hf, hi, bind, Except.bind] at h; simp [hf, hi, h]
            · simp [hm, hf, hi, bind, Except.bind, pure, Except.pure] at h
      · unfold decodeImmToReg at h
        rcases hi : readImmData read (wImmBit op) (start + 1) with e' | ⟨imm, q'⟩
        · simp [hi, bind, Except.bind] at h; simp [h]
        · simp [hi, bind, Except.bind, pure, Except.pure] at h
      · unfold decodeMemToAcc at h
        rcases hi : readWordLe read (start + 1) with e' | ⟨a, q'⟩
        · simp [hi, bind, Except.bind] at h; simp [h]
        · simp [hi, bind, Except.bind, pure, Except.pure] at h
      · unfold decodeAccToMem at h
        rcases hi : readWordLe read (start + 1) with e' | ⟨a, q'⟩
        · simp [hi, bind, Except.bind] at h; simp [h]
        · simp [hi, bind, Except.bind, pure, Except.pure] at h
      · simp [pure, Except.pure] at h
      · simp [pure, Except.pure] at h

/-! ## Lengths -/

@[simp] theorem wordBytes_length (v : Word) : (wordBytes v).length = 2 := rfl

/-- A well-formed r/m form has `dispLen` bytes (R49). -/
theorem rmForm_bytes_length {f : RmForm} (h : f.wellFormed = true) :
    f.bytes.length = dispLen f.modValue f.rmValue := by
  cases f with
  | baseOnly b => cases b <;> first | rfl | cases h
  | _ => rfl

theorem immData_bytes_length (imm : ImmData) : imm.bytes.length = imm.length := by cases imm <;> rfl

theorem dispLen_le (mod : BitVec 2) (rm : BitVec 3) : dispLen mod rm ≤ 2 := by
  unfold dispLen; repeat' split
  all_goals omega

theorem immData_length_le (imm : ImmData) : 1 ≤ imm.length ∧ imm.length ≤ 2 := by
  cases imm <;> simp [ImmData.length, ImmData.wBit]

/-! ## Readers of lists -/

theorem listReader_lt {bs : List Byte} {k : Nat} (h : k < bs.length) : listReader bs k = .ok bs[k] := by
  simp [listReader, h]

theorem listReader_ge {bs : List Byte} {k : Nat} (h : bs.length ≤ k) :
    listReader bs k = .error (.truncated k) := by
  simp [listReader, h]

theorem listReader_eq_ok {bs : List Byte} {k : Nat} {b : Byte} :
    listReader bs k = .ok b ↔ ∃ h : k < bs.length, bs[k] = b := by
  by_cases h : k < bs.length
  · rw [listReader_lt h]; simp [h]
  · rw [listReader_ge (by omega)]; simp [h]

end Sys2Proof
end

