-- ==== Sys2Proof/Laws/State.lean ====
section
/-! SUPPORT. One lemma for each field of State and each update of it, so that later proofs unfold no record update. -/

namespace Sys2Proof.Machine

@[simp] theorem beginDecode_B (s : State) : (beginDecode s).B = s.B := rfl
@[simp] theorem beginDecode_L (s : State) : (beginDecode s).L = s.L := rfl
@[simp] theorem beginDecode_params (s : State) : (beginDecode s).params = s.params := rfl
@[simp] theorem beginDecode_cur (s : State) : (beginDecode s).cur = s.cur := rfl
@[simp] theorem beginDecode_st (s : State) : (beginDecode s).st = .decoding := rfl
@[simp] theorem beginDecode_out (s : State) : (beginDecode s).out = s.out := rfl
@[simp] theorem beginDecode_recs (s : State) : (beginDecode s).recs = s.recs := rfl
@[simp] theorem beginDecode_notice (s : State) : (beginDecode s).notice = s.notice := rfl
@[simp] theorem beginDecode_term (s : State) : (beginDecode s).term = s.term := rfl

@[simp] theorem commit_B (r : Decoded) (s : State) : (commit r s).B = s.B := rfl
@[simp] theorem commit_L (r : Decoded) (s : State) : (commit r s).L = s.L := rfl
@[simp] theorem commit_params (r : Decoded) (s : State) : (commit r s).params = s.params := rfl
@[simp] theorem commit_cur (r : Decoded) (s : State) : (commit r s).cur = s.cur + r.len := rfl
@[simp] theorem commit_st (r : Decoded) (s : State) : (commit r s).st = .scanning := rfl
@[simp] theorem commit_out (r : Decoded) (s : State) : (commit r s).out = s.out ++ [render r] := rfl
@[simp] theorem commit_recs (r : Decoded) (s : State) : (commit r s).recs = s.recs ++ [r] := rfl
@[simp] theorem commit_notice (r : Decoded) (s : State) : (commit r s).notice = s.notice := rfl
@[simp] theorem commit_term (r : Decoded) (s : State) : (commit r s).term = s.term := rfl

@[simp] theorem terminate_B (q : Reason) (n : Option Nat) (s : State) : (terminate q n s).B = s.B := rfl
@[simp] theorem terminate_L (q : Reason) (n : Option Nat) (s : State) : (terminate q n s).L = s.L := rfl
@[simp] theorem terminate_params (q : Reason) (n : Option Nat) (s : State) :
    (terminate q n s).params = s.params := rfl
@[simp] theorem terminate_cur (q : Reason) (n : Option Nat) (s : State) : (terminate q n s).cur = s.cur := rfl
@[simp] theorem terminate_st (q : Reason) (n : Option Nat) (s : State) :
    (terminate q n s).st = .terminated q := rfl
@[simp] theorem terminate_out (q : Reason) (n : Option Nat) (s : State) : (terminate q n s).out = s.out := rfl
@[simp] theorem terminate_recs (q : Reason) (n : Option Nat) (s : State) : (terminate q n s).recs = s.recs := rfl
@[simp] theorem terminate_notice (q : Reason) (n : Option Nat) (s : State) :
    (terminate q n s).notice = s.notice := rfl
@[simp] theorem terminate_term (q : Reason) (n : Option Nat) (s : State) : (terminate q n s).term =
    some { reason := q, leadAt := s.cur, byte := s.leadByte, need := n } := rfl

@[simp] theorem raiseUnhandled_B (v : OpcodeVariant) (s : State) : (raiseUnhandled v s).B = s.B := rfl
@[simp] theorem raiseUnhandled_L (v : OpcodeVariant) (s : State) : (raiseUnhandled v s).L = s.L := rfl
@[simp] theorem raiseUnhandled_params (v : OpcodeVariant) (s : State) :
    (raiseUnhandled v s).params = s.params := rfl
@[simp] theorem raiseUnhandled_cur (v : OpcodeVariant) (s : State) : (raiseUnhandled v s).cur = s.cur := rfl
@[simp] theorem raiseUnhandled_st (v : OpcodeVariant) (s : State) :
    (raiseUnhandled v s).st = .terminated .unhandledVariant := rfl
@[simp] theorem raiseUnhandled_out (v : OpcodeVariant) (s : State) : (raiseUnhandled v s).out = s.out := rfl
@[simp] theorem raiseUnhandled_recs (v : OpcodeVariant) (s : State) : (raiseUnhandled v s).recs = s.recs := rfl
@[simp] theorem raiseUnhandled_notice (v : OpcodeVariant) (s : State) : (raiseUnhandled v s).notice = some v := rfl
@[simp] theorem raiseUnhandled_term (v : OpcodeVariant) (s : State) : (raiseUnhandled v s).term =
    some { reason := .unhandledVariant, leadAt := s.cur, byte := s.leadByte, need := none } := rfl

@[simp] theorem applyReset_B (s : State) : s.applyReset.B = s.B := rfl
@[simp] theorem applyReset_L (s : State) : s.applyReset.L = s.L := rfl
@[simp] theorem applyReset_params (s : State) : s.applyReset.params = s.params := rfl
@[simp] theorem applyReset_cur (s : State) : s.applyReset.cur = 0 := rfl
@[simp] theorem applyReset_st (s : State) : s.applyReset.st = .scanning := rfl
@[simp] theorem applyReset_out (s : State) : s.applyReset.out = [] := rfl
@[simp] theorem applyReset_recs (s : State) : s.applyReset.recs = [] := rfl
@[simp] theorem applyReset_notice (s : State) : s.applyReset.notice = none := rfl
@[simp] theorem applyReset_term (s : State) : s.applyReset.term = none := rfl

@[simp] theorem supply_B (s : State) (bs : List Byte) (p : Config.Params) :
    (s.supply bs p).B = Memory.writeBytes [] 0 bs := rfl
@[simp] theorem supply_L (s : State) (bs : List Byte) (p : Config.Params) : (s.supply bs p).L = bs.length := rfl
@[simp] theorem supply_params (s : State) (bs : List Byte) (p : Config.Params) : (s.supply bs p).params = p := rfl

@[simp] theorem placeAtCursor_B (s : State) (bs : List Byte) :
    (s.placeAtCursor bs).B = s.B.writeBytes s.cur bs := rfl
@[simp] theorem placeAtCursor_L (s : State) (bs : List Byte) :
    (s.placeAtCursor bs).L = max s.L (s.cur + bs.length) := rfl
@[simp] theorem placeAtCursor_cur (s : State) (bs : List Byte) : (s.placeAtCursor bs).cur = s.cur := rfl
@[simp] theorem placeAtCursor_st (s : State) (bs : List Byte) : (s.placeAtCursor bs).st = .scanning := rfl

/-- Reading depends on the stream and its length alone (R34). -/
theorem streamRead_congr {s t : State} (hB : t.B = s.B) (hL : t.L = s.L) : t.streamRead = s.streamRead := by
  funext k; simp [State.streamRead, hB, hL]

@[simp] theorem beginDecode_streamRead (s : State) : (beginDecode s).streamRead = s.streamRead := rfl
@[simp] theorem beginDecode_leadByte (s : State) : (beginDecode s).leadByte = s.leadByte := rfl
@[simp] theorem commit_streamRead (r : Decoded) (s : State) : (commit r s).streamRead = s.streamRead := rfl
@[simp] theorem terminate_streamRead (q : Reason) (n : Option Nat) (s : State) :
    (terminate q n s).streamRead = s.streamRead := rfl
@[simp] theorem raiseUnhandled_streamRead (v : OpcodeVariant) (s : State) :
    (raiseUnhandled v s).streamRead = s.streamRead := rfl
@[simp] theorem applyReset_streamRead (s : State) : s.applyReset.streamRead = s.streamRead := rfl

/-- R30, inside the stream. -/
theorem streamRead_lt {s : State} {k : Nat} (h : k < s.L) : s.streamRead k = .ok (s.B.read k) := by
  simp [State.streamRead, h]

/-- R30, past the end. -/
theorem streamRead_ge {s : State} {k : Nat} (h : s.L ≤ k) : s.streamRead k = .error (.truncated k) := by
  simp [State.streamRead, Nat.not_lt.mpr h]

/-- What a read that answers a byte says (R30). -/
theorem streamRead_eq_ok {s : State} {k : Nat} {b : Byte} :
    s.streamRead k = .ok b ↔ k < s.L ∧ s.B.read k = b := by
  unfold State.streamRead; split <;> simp_all

/-- What a read that raises says (R30): only TruncatedInstruction, with the offset it tried. -/
theorem streamRead_eq_error {s : State} {k : Nat} {e : DecodeError} :
    s.streamRead k = .error e ↔ s.L ≤ k ∧ e = .truncated k := by
  unfold State.streamRead; split <;> simp_all <;> first | omega | exact eq_comm

/-- The lead byte of a cursor inside the stream. -/
theorem leadByte_lt {s : State} (h : s.cur < s.L) : s.leadByte = some (s.B.read s.cur) := by
  simp [State.leadByte, streamRead_lt h, Except.toOption]

/-- There is no lead byte at the end of the stream (R15). -/
theorem leadByte_ge {s : State} (h : s.L ≤ s.cur) : s.leadByte = none := by
  simp [State.leadByte, streamRead_ge h, Except.toOption]

end Sys2Proof.Machine
end

