-- ==== Sys2Proof/Laws/Step.lean ====
section
/-! SUPPORT. What a step and a meaning can do, said once. -/

namespace Sys2Proof.Machine

/-- What a meaning does: an instruction of a decoded variant commits one record of its own variant, length and place; a
segment form raises UnhandledVariant. No meaning faults or refuses. -/
theorem exec_cases (i : Instr) (s : State) :
    (∃ r, exec i s = .next (commit r s) ∧ r.leadAt = s.cur ∧ r.len = i.length ∧ r.variant = i.variant ∧
      isSegmentForm i.variant = false) ∨
    (i = .regMemToSeg ∧ exec i s = .next (raiseUnhandled .RegMemToSeg s)) ∨
    (i = .segToRegMem ∧ exec i s = .next (raiseUnhandled .SegToRegMem s)) := by
  cases i with
  | regMemToSeg => exact .inr (.inl ⟨rfl, rfl⟩)
  | segToRegMem => exact .inr (.inr ⟨rfl, rfl⟩)
  | _ => exact .inl ⟨_, rfl, rfl, rfl, rfl, rfl⟩

/-- A meaning does not read the FSM: inside a step it gives what it would give outside one. -/
theorem exec_beginDecode (i : Instr) (s : State) : exec i (beginDecode s) = exec i s := by cases i <;> rfl

/-- A step answers a next state only when the FSM is `Scanning`, in one of three ways (R60). -/
theorem step_cases {s t : State} (h : step s = .next t) :
    s.st = .scanning ∧
      ((s.cur = s.L ∧ t = endOfStream s) ∨
       (s.cur ≠ s.L ∧ ∃ i q, s.fetchInstr = .ok (i, q) ∧ exec i s = .next t) ∨
       (s.cur ≠ s.L ∧ ∃ e, s.fetchInstr = .error e ∧ t = raise e (beginDecode s))) := by
  unfold step at h
  split at h
  · next hst =>
    refine ⟨hst, ?_⟩
    unfold decodeStep at h
    split at h
    · next hc => cases h; exact .inl ⟨hc, rfl⟩
    · next hc =>
      split at h
      · next i q hf => rw [exec_beginDecode] at h; exact .inr (.inl ⟨hc, i, q, hf, h⟩)
      · next e hf => cases h; exact .inr (.inr ⟨hc, e, hf, rfl⟩)
  · cases h
  · cases h

theorem step_of_scanning {s : State} (h : s.st = .scanning) : step s = decodeStep s := by
  unfold step; rw [h]

/-- A step at the end of the stream. -/
theorem step_end {s : State} (h : s.st = .scanning) (hc : s.cur = s.L) : step s = .next (endOfStream s) := by
  rw [step_of_scanning h, decodeStep, if_pos hc]

/-- A step on an instruction that decodes. -/
theorem step_fetch_ok {s : State} {i : Instr} {q : Nat} (h : s.st = .scanning) (hc : s.cur ≠ s.L)
    (hf : s.fetchInstr = .ok (i, q)) : step s = exec i s := by
  rw [step_of_scanning h, decodeStep, if_neg hc, hf]
  exact exec_beginDecode i s

/-- A step on an instruction that does not decode. -/
theorem step_fetch_error {s : State} {e : DecodeError} (h : s.st = .scanning) (hc : s.cur ≠ s.L)
    (hf : s.fetchInstr = .error e) : step s = .next (raise e (beginDecode s)) := by
  rw [step_of_scanning h, decodeStep, if_neg hc, hf]

/-- What raising a decode error changes (R145): the FSM and the termination record. -/
theorem raise_cases (e : DecodeError) (s : State) :
    (∃ b, e = .unsupportedOpcode b ∧ raise e s = terminate (.error .unsupportedOpcode) none s) ∨
    (∃ n, e = .truncated n ∧ raise e s = terminate (.error .truncatedInstruction) (some n) s) := by
  cases e with
  | unsupportedOpcode b => exact .inl ⟨b, rfl, rfl⟩
  | truncated n => exact .inr ⟨n, rfl, rfl⟩

/-- An instruction has one to six bytes (R48). -/
theorem instr_length_bounds (i : Instr) : 1 ≤ i.length ∧ i.length ≤ maxInstrBytes := by
  cases i with
  | regMemToFromReg d w reg rm =>
    have := dispLen_le rm.modValue rm.rmValue; simp [Instr.length, maxInstrBytes]; omega
  | immToRegMem reg rm imm =>
    have := dispLen_le rm.modValue rm.rmValue; have := immData_length_le imm
    simp [Instr.length, maxInstrBytes]; omega
  | immToReg reg imm => have := immData_length_le imm; simp [Instr.length, maxInstrBytes]; omega
  | memToAcc w a => exact ⟨Nat.le_add_left 1 2, Nat.le_add_left 3 3⟩
  | accToMem w a => exact ⟨Nat.le_add_left 1 2, Nat.le_add_left 3 3⟩
  | regMemToSeg => exact ⟨Nat.le_refl 1, Nat.le_add_left 1 5⟩
  | segToRegMem => exact ⟨Nat.le_refl 1, Nat.le_add_left 1 5⟩

/-- An instruction that commits has at least two bytes (R48). -/
theorem instr_length_of_committed {i : Instr} (h : isSegmentForm i.variant = false) : 2 ≤ i.length := by
  cases i with
  | regMemToFromReg d w reg rm => simp [Instr.length]
  | immToRegMem reg rm imm => simp [Instr.length]; omega
  | immToReg reg imm => have := immData_length_le imm; simp [Instr.length]; omega
  | memToAcc w a => simp [Instr.length]
  | accToMem w a => simp [Instr.length]
  | regMemToSeg => cases h
  | segToRegMem => cases h

/-- Every byte that an answered instruction spans was read, and the offset answered is one past the last (R31, R65). -/
theorem decodeOne_reads {read : ByteReader} {start q : Nat} {i : Instr} (h : decodeOne read start = .ok (i, q)) :
    q = start + i.length ∧ ∀ k < i.length, ∃ b, read (start + k) = .ok b := by
  obtain ⟨op, hop, hcases⟩ := decodeOne_ok_cases h
  have word : ∀ {p q v}, readWordLe read p = .ok (v, q) →
      q = p + 2 ∧ ∀ k < 2, ∃ b, read (p + k) = .ok b := by
    intro p q v hv
    obtain ⟨lo, hi, h0, h1, -, rfl⟩ := readWordLe_eq_ok.mp hv
    refine ⟨rfl, fun k hk => ?_⟩
    match k, hk with
    | 0, _ => exact ⟨lo, h0⟩
    | 1, _ => exact ⟨hi, h1⟩
  have form : ∀ {m r p q f}, readRmForm read m r p = .ok (f, q) →
      q = p + dispLen f.modValue f.rmValue ∧ ∀ k < dispLen f.modValue f.rmValue, ∃ b, read (p + k) = .ok b := by
    intro m r p q f hf
    obtain ⟨-, hm, hr, hq, hl, hb⟩ := readRmForm_spec hf
    rw [hm, hr]
    exact ⟨hq, fun k hk => ⟨_, hb k (by omega)⟩⟩
  have imm : ∀ {w p q d}, readImmData read w p = .ok (d, q) →
      q = p + d.length ∧ ∀ k < d.length, ∃ b, read (p + k) = .ok b := by
    intro w p q d hd
    obtain ⟨-, hq, hl, hb⟩ := readImmData_spec hd
    exact ⟨hq, fun k hk => ⟨_, hb k (by omega)⟩⟩
  rcases hcases with ⟨-, m, rm, hm, hf, rfl⟩ | ⟨-, m, rm, q', d, hm, hf, hd, rfl⟩ | ⟨-, d, hd, rfl⟩ |
    ⟨-, a, ha, rfl⟩ | ⟨-, a, ha, rfl⟩ | ⟨-, rfl, rfl⟩ | ⟨-, rfl, rfl⟩
  · obtain ⟨rfl, hr⟩ := form hf
    refine ⟨by simp [Instr.length]; omega, fun k hk => ?_⟩
    match k, hk with
    | 0, _ => exact ⟨op, hop⟩
    | 1, _ => exact ⟨m, hm⟩
    | k + 2, hk =>
      rw [show start + (k + 2) = start + 2 + k from by omega]
      exact hr k (by simp [Instr.length] at hk; omega)
  · obtain ⟨rfl, hr⟩ := form hf
    obtain ⟨rfl, hi⟩ := imm hd
    refine ⟨by simp [Instr.length]; omega, fun k hk => ?_⟩
    match k, hk with
    | 0, _ => exact ⟨op, hop⟩
    | 1, _ => exact ⟨m, hm⟩
    | k + 2, hk =>
      by_cases hlt : k < dispLen rm.modValue rm.rmValue
      · rw [show start + (k + 2) = start + 2 + k from by omega]
        exact hr k hlt
      · rw [show start + (k + 2) = start + 2 + dispLen rm.modValue rm.rmValue +
          (k - dispLen rm.modValue rm.rmValue) from by omega]
        exact hi _ (by simp [Instr.length] at hk; omega)
  · obtain ⟨rfl, hi⟩ := imm hd
    refine ⟨by simp [Instr.length]; omega, fun k hk => ?_⟩
    match k, hk with
    | 0, _ => exact ⟨op, hop⟩
    | k + 1, hk =>
      rw [show start + (k + 1) = start + 1 + k from by omega]
      exact hi k (by simp [Instr.length] at hk; omega)
  · obtain ⟨rfl, hi⟩ := word ha
    refine ⟨by simp [Instr.length], fun k hk => ?_⟩
    match k, hk with
    | 0, _ => exact ⟨op, hop⟩
    | k + 1, hk =>
      rw [show start + (k + 1) = start + 1 + k from by omega]
      exact hi k (by simp [Instr.length] at hk; omega)
  · obtain ⟨rfl, hi⟩ := word ha
    refine ⟨by simp [Instr.length], fun k hk => ?_⟩
    match k, hk with
    | 0, _ => exact ⟨op, hop⟩
    | k + 1, hk =>
      rw [show start + (k + 1) = start + 1 + k from by omega]
      exact hi k (by simp [Instr.length] at hk; omega)
  · refine ⟨rfl, fun k hk => ?_⟩
    match k, hk with
    | 0, _ => exact ⟨op, hop⟩
  · refine ⟨rfl, fun k hk => ?_⟩
    match k, hk with
    | 0, _ => exact ⟨op, hop⟩

end Sys2Proof.Machine
end

