-- ==== Sys2Proof/Laws/PerInstr.lean ====
section
/-! SUPPORT. What holds of every instruction as syntax, made one constructor at a time. -/

namespace Sys2Proof.Laws.EncodeLength

/-- A well-formed instruction is encoded in as many bytes as R48 gives it, from one to six. -/
def Statement (i : Instr) : Prop :=
  i.wellFormed = true → (encode i).length = i.length ∧ 1 ≤ (encode i).length ∧ (encode i).length ≤ maxInstrBytes

/-- The bounds follow from the length. -/
theorem of_length {i : Instr} (h : i.wellFormed = true → (encode i).length = i.length) : Statement i := fun hw =>
  ⟨h hw, by rw [h hw]; exact (Machine.instr_length_bounds i).1, by rw [h hw]; exact (Machine.instr_length_bounds i).2⟩

theorem regMemToFromReg (d w : Bool) (reg : BitVec 3) (rm : RmForm) : Statement (.regMemToFromReg d w reg rm) :=
  of_length fun hw => by simp [encode, Instr.length, rmForm_bytes_length hw]; omega

theorem immToRegMem (reg : BitVec 3) (rm : RmForm) (imm : ImmData) : Statement (.immToRegMem reg rm imm) :=
  of_length fun hw => by simp [encode, Instr.length, rmForm_bytes_length hw, immData_bytes_length]; omega

theorem immToReg (reg : BitVec 3) (imm : ImmData) : Statement (.immToReg reg imm) :=
  of_length fun _ => by simp [encode, Instr.length, immData_bytes_length]; omega

theorem memToAcc (w : Bool) (addr : Word) : Statement (.memToAcc w addr) := of_length fun _ => rfl

theorem accToMem (w : Bool) (addr : Word) : Statement (.accToMem w addr) := of_length fun _ => rfl

theorem regMemToSeg : Statement .regMemToSeg := of_length fun _ => rfl

theorem segToRegMem : Statement .segToRegMem := of_length fun _ => rfl

end Sys2Proof.Laws.EncodeLength
end

