-- ==== Sys2Proof/Laws/Pseudocode.lean ====
section
/-! SUPPORT. The parts of the spec's pseudocode (Machine/Pseudocode.lean) are the parts of the decoder, field by field and
operand by operand. -/

namespace Sys2Proof.Machine

theorem wBit_eq_bit : ∀ op : Byte, wBit op = Pseudocode.bit op 0 := by decide
theorem dBit_eq_bit : ∀ op : Byte, dBit op = Pseudocode.bit op 1 := by decide
theorem wImmBit_eq_bit : ∀ op : Byte, wImmBit op = Pseudocode.bit op 3 := by decide
theorem regImmField_toNat : ∀ op : Byte, (regImmField op).toNat = Pseudocode.bits op 2 0 := by decide
theorem modField_toNat : ∀ m : Byte, (modField m).toNat = Pseudocode.bits m 7 6 := by decide
theorem regField_toNat : ∀ m : Byte, (regField m).toNat = Pseudocode.bits m 5 3 := by decide
theorem rmField_toNat : ∀ m : Byte, (rmField m).toNat = Pseudocode.bits m 2 0 := by decide

/-- The pseudocode's table of lengths is the decoder's (R49). -/
theorem dispLen_toNat : ∀ (mod : BitVec 2) (rm : BitVec 3),
    Pseudocode.dispLen mod.toNat rm.toNat = dispLen mod rm := by decide

theorem registerOf_toNat (i : BitVec 3) (w : Bool) : Pseudocode.registerOf i.toNat w = .register (regName i w) := by
  rw [Pseudocode.registerOf, BitVec.ofNat_toNat, BitVec.setWidth_eq]

theorem base_toNat (rm : BitVec 3) : Pseudocode.base rm.toNat = baseOfRm rm := by
  rw [Pseudocode.base, BitVec.ofNat_toNat, BitVec.setWidth_eq]

/-- The ModRM fields of a record, from the decoder's fields (R17). -/
theorem modRmFields_eq (d w : Option Bool) (m : Byte) : Pseudocode.modRmFields d w m =
    { d := d, w := w, mod := some (modField m), reg := some (regField m), rm := some (rmField m) } := by
  simp only [Pseudocode.modRmFields, ← modField_toNat, ← regField_toNat, ← rmField_toNat, BitVec.ofNat_toNat,
    BitVec.setWidth_eq]

/-- `s16` of a little-endian field is `s16` of its number (R78, R79). -/
theorem s16_wordLe (lo hi : Byte) : s16 (wordLe lo hi) = Pseudocode.s16le lo hi := by
  simp only [s16, Pseudocode.s16le, wordLe_toNat]

/-- `Resolve` (R73) is the resolver's reads, then the operand its form stands for. -/
theorem resolve_eq (read : ByteReader) (mod : BitVec 2) (rm : BitVec 3) (w : Bool) (p : Nat) :
    Pseudocode.resolve read mod.toNat rm.toNat w p =
      (readRmForm read mod rm p).map (fun fq => (rmOperand fq.1 w, fq.2)) := by
  have hrm : rm.toNat = 6 ↔ rm = 6#3 := by revert rm; decide
  rcases mod_cases mod with rfl | rfl | rfl | rfl
  · simp only [Pseudocode.resolve, readRmForm, BitVec.toNat_ofNat, Nat.zero_mod, ne_eq, hrm, base_toNat]
    by_cases h : rm = 6#3
    · rcases h0 : read p with e | lo <;> rcases h1 : read (p + 1) with e | hi <;>
        simp [h, h0, h1, readWordLe, bind, Except.bind, pure, Except.pure, Except.map, rmOperand]
    · simp [h, pure, Except.pure, Except.map, rmOperand]
  · rcases h0 : read p with e | b <;>
      simp [Pseudocode.resolve, readRmForm, base_toNat, h0, bind, Except.bind, pure, Except.pure, Except.map, rmOperand]
  · rcases h0 : read p with e | lo <;> rcases h1 : read (p + 1) with e | hi <;>
      simp [Pseudocode.resolve, readRmForm, base_toNat, h0, h1, readWordLe, bind, Except.bind, pure, Except.pure,
        Except.map, rmOperand, s16_wordLe]
  · simp [Pseudocode.resolve, readRmForm, registerOf_toNat, pure, Except.pure, Except.map, rmOperand]

/-- `ReadImmediate` (R79) is the reader's reads, then the operand its data stands for. -/
theorem readImmediate_eq (read : ByteReader) (w : Bool) (p : Nat) :
    Pseudocode.readImmediate read w p = (readImmData read w p).map (fun dq => (immOperand dq.1, dq.2)) := by
  cases w
  · rcases h0 : read p with e | b <;>
      simp [Pseudocode.readImmediate, readImmData, h0, bind, Except.bind, pure, Except.pure, Except.map, immOperand]
  · rcases h0 : read p with e | lo <;> rcases h1 : read (p + 1) with e | hi <;>
      simp [Pseudocode.readImmediate, readImmData, h0, h1, readWordLe, bind, Except.bind, pure, Except.pure,
        Except.map, immOperand, s16_wordLe]

end Sys2Proof.Machine
end

