-- ==== Sys2Proof/Laws/Text.lean ====
section
/-! SUPPORT. The text of numbers (R80): what the digits of `decDigits` are and what they spell. -/

namespace Sys2Proof.Machine

theorem digitChar_isDigit : ∀ d < 10, (Nat.digitChar d).isDigit = true := by decide
theorem digitChar_value : ∀ d < 10, (Nat.digitChar d).toNat - 48 = d := by decide
theorem digitChar_eq_zero : ∀ d < 10, Nat.digitChar d = '0' → d = 0 := by decide

theorem decValue_append (ds : List Char) (c : Char) :
    decValue (ds ++ [c]) = 10 * decValue ds + (c.toNat - 48) := by
  simp [decValue, List.foldl_append]

/-- One unfolding of `decDigits`. -/
theorem decDigits_succ (fuel n : Nat) : decDigits (fuel + 1) n =
    if n < 10 then [Nat.digitChar n] else decDigits fuel (n / 10) ++ [Nat.digitChar (n % 10)] := rfl

/-- With enough fuel the digits are a decimal of the number, with no leading zero. -/
theorem decDigits_spec {fuel n : Nat} (h : n < fuel) :
    IsDecimal (decDigits fuel n) ∧ decValue (decDigits fuel n) = n ∧
      ((decDigits fuel n).head? = some '0' → n = 0) := by
  induction fuel generalizing n with
  | zero => omega
  | succ fuel ih =>
    rw [decDigits_succ]
    split
    · next hn =>
      refine ⟨⟨by simp, by simpa using digitChar_isDigit n hn, ?_⟩, ?_, ?_⟩
      · simp
      · simp [decValue, digitChar_value n hn]
      · exact fun h => digitChar_eq_zero n hn (by simpa using h)
    · next hn =>
      obtain ⟨⟨hne, hdig, -⟩, hval, hlead⟩ := ih (n := n / 10) (by omega)
      have hhead : (decDigits fuel (n / 10) ++ [Nat.digitChar (n % 10)]).head? =
          (decDigits fuel (n / 10)).head? := by
        cases hd : decDigits fuel (n / 10) with
        | nil => exact absurd hd hne
        | cons c cs => rfl
      refine ⟨⟨by simp, ?_, ?_⟩, ?_, ?_⟩
      · intro c hc
        rcases List.mem_append.mp hc with hc | hc
        · exact hdig c hc
        · rw [List.mem_singleton.mp hc]; exact digitChar_isDigit _ (by omega)
      · rw [hhead]; intro h0; have := hlead h0; omega
      · rw [decValue_append, hval, digitChar_value _ (by omega)]; omega
      · rw [hhead]; intro h0; have := hlead h0; omega

theorem decNat_toList (n : Nat) : (decNat n).toList = decDigits (n + 1) n := by
  simp [decNat]

end Sys2Proof.Machine
end

