-- ==== Sys2Proof/Machine/Flags.lean ====
section
/-! DEFINITION. Nothing: the block has no flags and no condition codes (10_state.md R21), and "flags written" is "none"
for every instruction (42_mov_rm_reg.md to 46_mov_seg.md). The file stands so that a reader who looks for the flag
computations finds this said. -/
end

