-- ==== Sys2Proof/Tests/Slice0.lean ====
section
/-! SUPPORT. The model's own tests. Expected values come from spec/95_test_vectors.md or from the encodings of
30_encoding.md; each theorem names its source. The `witness_` theorems each show states that meet the hypotheses of one
statement of Certificates/Slice0/Obligations.lean, its clauses at the ends of their ranges. -/

namespace Sys2Proof.Tests

open Sys2Proof.Machine

/-! ## Helpers -/

/-- The block right after reset, over a stream that is these bytes, with `ACC_HONORS_W = false`. -/
def start (bytes : List Byte) : State := State.startOver bytes Config.Params.default

/-- The state after a step, or the state itself where the step stops. -/
def after (s : State) : State :=
  match step s with
  | .next t => t
  | .fault _ => s
  | .refused _ => s

/-- The last record of a state; where it has none, a record that no step commits. -/
def lastRec (s : State) : Decoded :=
  s.recs.getLast?.getD
    { leadAt := 0, len := 0, variant := .RegMemToSeg, fields := {}, dst := .register .al, src := .register .al }

/-- States whose steps answer next states of which `P` holds, from one check by evaluation. -/
theorem nexts_of {α : Type} {l : List α} (f : α → State) {P : α → State → Prop} [∀ a t, Decidable (P a t)]
    (h : l.all (fun a => match step (f a) with
      | .next t => decide (P a t)
      | .fault _ => false
      | .refused _ => false) = true) :
    ∀ a ∈ l, ∃ t, step (f a) = .next t ∧ P a t := by
  intro a ha
  have := List.all_eq_true.mp h a ha
  split at this
  · next t ht => exact ⟨t, ht, of_decide_eq_true this⟩
  · cases this
  · cases this

/-! ## Well-formedness: the terms that stand for no encoding are refused (R72, R76) -/

theorem test_wellFormed_refuses_bp_alone_in_regMemToFromReg :
    (Instr.regMemToFromReg true false 0 (.baseOnly .bp)).wellFormed = false := by decide
theorem test_wellFormed_refuses_bp_alone_in_immToRegMem :
    (Instr.immToRegMem 0 (.baseOnly .bp) (.byte 7)).wellFormed = false := by decide

/-! ## Decoding, by words written out from the layouts of R47 -/

/-- `100010dw` d=0 w=1; `mm rrr bbb` = 11 011 001: Scenario A. -/
theorem test_decode_regMemToFromReg : decodeBytes [0b10001001, 0b11011001] =
    .ok (.regMemToFromReg false true 3 (.register 1), 2) := by decide
/-- `100010dw` d=1 w=1; `mm rrr bbb` = 10 000 110; displacement 00 80. -/
theorem test_decode_regMemToFromReg_disp16 : decodeBytes [0b10001011, 0b10000110, 0x00, 0x80] =
    .ok (.regMemToFromReg true true 0 (.disp16 .bp 0x8000), 4) := by decide
/-- `1100011w` w=1; `mm rrr bbb` = 00 000 110; address 10 00, then data FF FE. -/
theorem test_decode_immToRegMem : decodeBytes [0b11000111, 0b00000110, 0x10, 0x00, 0xFF, 0xFE] =
    .ok (.immToRegMem 0 (.direct 0x0010) (.word 0xFEFF), 6) := by decide
/-- `1100011w` w=0; `mm rrr bbb` = 01 000 000: Scenario C. -/
theorem test_decode_immToRegMem_disp8 : decodeBytes [0b11000110, 0b01000000, 0x04, 0x1D] =
    .ok (.immToRegMem 0 (.disp8 .bxSi 4) (.byte 29), 4) := by decide
/-- `1011wrrr` w=1 reg=001, data F4 FF; and w=0 reg=111, data FF. -/
theorem test_decode_immToReg : decodeBytes [0b10111001, 0xF4, 0xFF] = .ok (.immToReg 1 (.word 0xFFF4), 3) ∧
    decodeBytes [0b10110111, 0xFF] = .ok (.immToReg 7 (.byte 0xFF), 2) := by decide
/-- `1010000w` w=1, address FB 09. -/
theorem test_decode_memToAcc : decodeBytes [0b10100001, 0xFB, 0x09] = .ok (.memToAcc true 0x09FB, 3) := by decide
/-- `1010001w` w=0, address FA 09. -/
theorem test_decode_accToMem : decodeBytes [0b10100010, 0xFA, 0x09] = .ok (.accToMem false 0x09FA, 3) := by decide
/-- `10001110`, the lead byte alone, with or without a byte after it. -/
theorem test_decode_regMemToSeg : decodeBytes [0b10001110] = .ok (.regMemToSeg, 1) ∧
    decodeBytes [0b10001110, 0xD8] = .ok (.regMemToSeg, 1) := by decide
/-- `10001100`, the lead byte alone, with or without a byte after it. -/
theorem test_decode_segToRegMem : decodeBytes [0b10001100] = .ok (.segToRegMem, 1) ∧
    decodeBytes [0b10001100, 0xC0] = .ok (.segToRegMem, 1) := by decide
/-- 8D lies between the two segment forms and matches no row (2.1); a displacement's high byte is missing (2.9). -/
theorem test_decode_rejects : decodeBytes [0x8D, 0x00] = .error (.unsupportedOpcode 0x8D) ∧
    decodeBytes [0x8B, 0x86, 0x01] = .error (.truncated 3) := by decide

/-- 28 lead bytes classify and 228 do not (2.1). -/
theorem test_classify_counts :
    ((List.range 256).filter (fun n => (classify (BitVec.ofNat 8 n)).isSome)).length = 28 := by decide
/-- The fields of 8B, B9 and 06 (2.2). -/
theorem test_fields : dBit 0x8B = true ∧ wBit 0x8B = true ∧ modField 0x8B = 2 ∧ regField 0x8B = 1 ∧ rmField 0x8B = 3 ∧
    wImmBit 0xB9 = true ∧ regImmField 0xB9 = 1 ∧ modField 0x06 = 0 ∧ regField 0x06 = 0 ∧ rmField 0x06 = 6 := by decide

/-- The opcode table's words, as the host numbers their bits. -/
theorem test_decodeTableWord : decodeTableWord 16 0xD989 = some (.regMemToFromReg false true 3 (.register 1)) ∧
    decodeTableWord 8 0xC7 = some (.immToRegMem 0 (.baseOnly .bxSi) (.word 0)) ∧
    decodeTableWord 8 0x8C = some .segToRegMem ∧ decodeTableWord 8 0x8D = none := by decide
/-- The very next step after `withFetchWord` runs the word. -/
theorem test_withFetchWord : (after (State.reset.withFetchWord 16 0xD989)).out = ["mov cx, bx"] ∧
    (after (State.reset.withFetchWord 8 0x8E)).notice = some .RegMemToSeg := by decide

/-! ## One step of each instruction (95_test_vectors.md) -/

/-- Scenario A; a negative 16-bit displacement (2.4). -/
theorem test_step_regMemToFromReg : (after (start [0x89, 0xD9])).out = ["mov cx, bx"] ∧
    (after (start [0x89, 0x8C, 0xD4, 0xFE])).out = ["mov [si - 300], cx"] := by decide
/-- `8A 46 00`: mod=1 with displacement 0 is not the direct address (2.4); the record keeps mod=1. -/
theorem test_step_regMemToFromReg_zero_disp : (after (start [0x8A, 0x46, 0x00])).out = ["mov al, [bp]"] ∧
    (lastRec (after (start [0x8A, 0x46, 0x00]))).src = .memory (.baseDisp .bp 0) ∧
    (after (start [0x8A, 0x46, 0x00])).cur = 3 := by decide
/-- Scenario C; displacement before data (2.5). -/
theorem test_step_immToRegMem :
    (after (start [0xC6, 0x40, 0x04, 0x1D])).out = ["mov [bx + si + 4], byte 29"] ∧
    (after (start [0xC7, 0x85, 0x85, 0x03, 0x5B, 0x01])).out = ["mov [di + 901], word 347"] := by decide
/-- mod=3 keeps the tag, and the reg field is ignored (2.5). -/
theorem test_step_immToRegMem_register : (after (start [0xC7, 0xC1, 0x0C, 0x00])).out = ["mov cx, word 12"] ∧
    (after (start [0xC6, 0xF8, 0x05])).out = ["mov al, byte 5"] := by decide
/-- Scenario B; the byte minimum (2.6). -/
theorem test_step_immToReg : (after (start [0xB8, 0x09, 0x00])).out = ["mov ax, 9"] ∧
    (after (start [0xB5, 0x80])).out = ["mov ch, -128"] := by decide
/-- `A0` with w=0 still names ax, unless ACC_HONORS_W (2.7). -/
theorem test_step_memToAcc : (after (start [0xA0, 0x10, 0x00])).out = ["mov ax, [16]"] ∧
    (after (State.startOver [0xA0, 0x10, 0x00] { accHonorsW := true })).out = ["mov al, [16]"] := by decide
/-- The address is unsigned (2.7). -/
theorem test_step_accToMem : (after (start [0xA2, 0xFF, 0xFF])).out = ["mov [65535], ax"] ∧
    (after (State.startOver [0xA2, 0xFF, 0xFF] { accHonorsW := true })).out = ["mov [65535], al"] := by decide
/-- `8E D8` (2.8). -/
theorem test_step_regMemToSeg : (after (start [0x8E, 0xD8])).st = .terminated .unhandledVariant ∧
    (after (start [0x8E, 0xD8])).cur = 0 ∧ (after (start [0x8E, 0xD8])).out = [] ∧
    (after (start [0x8E, 0xD8])).notice = some .RegMemToSeg := by decide
/-- `89 D9 8C D8`: the record names the lead byte's offset (2.8). -/
theorem test_step_segToRegMem : (after (after (start [0x89, 0xD9, 0x8C, 0xD8]))).term =
      some { reason := .unhandledVariant, leadAt := 2, byte := some 0x8C, need := none } ∧
    (after (after (start [0x89, 0xD9, 0x8C, 0xD8]))).notice = some .SegToRegMem := by decide

/-- The ends of 2.9: an empty stream, an unsupported lead byte, and data missing after a displacement. -/
theorem test_step_ends :
    (after (start [])).term = some { reason := .exhausted, leadAt := 0, byte := none, need := none } ∧
    (after (start [0x26, 0x8B, 0x07])).term =
      some { reason := .error .unsupportedOpcode, leadAt := 0, byte := some 0x26, need := none } ∧
    (after (start [0xC6, 0x40, 0x04])).term =
      some { reason := .error .truncatedInstruction, leadAt := 0, byte := some 0xC6, need := some 3 } := by decide
/-! ## Witnesses of the statements' hypotheses: encoding, classification and fields -/

/-- One well-formed instruction of every constructor, the r/m operands one of every form, with bytes before and after. -/
theorem witness_DecodeOfEncodedInstructionIsTheInstruction :
    ∀ i ∈ [Instr.regMemToFromReg false false 0 (.register 7), .regMemToFromReg true true 7 (.baseOnly .bx),
        .immToRegMem 7 (.direct 0xFFFF) (.byte 0x80), .immToRegMem 0 (.disp8 .bp 0) (.word 0x8000),
        .regMemToFromReg true false 3 (.disp16 .bp 0xFFFF), .immToReg 7 (.word 0), .memToAcc false 0xFFFF,
        .accToMem true 0, .regMemToSeg, .segToRegMem],
      i.wellFormed = true ∧
        decodeOne (listReader ([0x90] ++ encode i ++ [0x01, 0x02])) 1 = .ok (i, 1 + (encode i).length) := by decide

/-- The shortest and the longest instruction, at offset 0 and at the end of the bytes. -/
theorem witness_DecodedInstructionEncodesToTheBytesConsumed :
    decodeOne (listReader [0x8E]) 0 = .ok (.regMemToSeg, 1) ∧
    decodeOne (listReader [0x00, 0xC7, 0x06, 0x10, 0x00, 0xFF, 0xFF]) 1 =
      .ok (.immToRegMem 0 (.direct 16) (.word 0xFFFF), 7) := by decide

/-- A lead byte at each end of each clause's range, with its class. -/
theorem witness_OpcodeMapOfEveryLeadByte :
    (∀ op ∈ [0x88#8, 0x8B, 0x8C, 0x8E, 0xA0, 0xA1, 0xA2, 0xA3, 0xB0, 0xBF, 0xC6, 0xC7],
      listReader [op] 0 = .ok op ∧ (classify op).isSome = true) ∧
    (∀ op ∈ [0x00#8, 0x87, 0x8D, 0x8F, 0x9F, 0xA4, 0xAF, 0xC0, 0xC5, 0xC8, 0xFF, 0x26, 0xF3],
      listReader [op] 0 = .ok op ∧ classify op = none) := by decide

/-- Two rows with the lead bytes that match them, and another order of the table. -/
theorem witness_ClassIsTheUniqueRowInAnyOrder :
    (⟨.RegMemToFromReg, 0xFC, 0x88⟩ ∈ patternTable ∧ (0x8B#8 &&& 0xFC#8) = 0x88#8) ∧
    (⟨.SegToRegMem, 0xFF, 0x8C⟩ ∈ patternTable ∧ (0x8C#8 &&& 0xFF#8) = 0x8C#8) ∧
    patternTable.reverse.Perm patternTable :=
  ⟨by decide, by decide, List.reverse_perm _⟩

/-- A step that commits, for each clause, with dispLen 0 and 2 and both immediates. -/
theorem witness_CommittedLengthFromLeadAndModRmBytes :
    ∀ a ∈ [([0x88, 0xC0], 0x88#8), ([0x8B, 0x86, 0x00, 0x80], 0x8B), ([0xC6, 0xC0, 0x01], 0xC6),
        ([0xC7, 0x06, 0x10, 0x00, 0xFF, 0xFF], 0xC7), ([0xB0, 0x01], 0xB0), ([0xBF, 0xFF, 0x7F], 0xBF),
        ([0xA0, 0x00, 0x00], 0xA0), ([0xA3, 0xFF, 0xFF], 0xA3)],
      ∃ t, step (start a.1) = .next t ∧ ((start a.1).streamRead (start a.1).cur = .ok a.2 ∧
        t.recs = (start a.1).recs ++ [lastRec t]) :=
  nexts_of (fun a : List Byte × _ => start a.1) (by decide)

/-! ## The step and the dispatch -/

/-- A fetch at the cursor, for a decoded variant and for a segment form. -/
theorem witness_StepRunsTheDecodedInstruction :
    ((start [0x89, 0xD9]).st = .scanning ∧
      (start [0x89, 0xD9]).fetchInstr = .ok (.regMemToFromReg false true 3 (.register 1), 2)) ∧
    ((start [0x8C]).st = .scanning ∧ (start [0x8C]).fetchInstr = .ok (.segToRegMem, 1)) := by decide

/-- The bytes of one instruction stand at the cursor, and end the stream. -/
theorem witness_StepRunsTheInstructionAtTheCursor :
    (start [0xC6, 0x40, 0x04, 0x1D]).st = .scanning ∧
    (Instr.immToRegMem 0 (.disp8 .bxSi 4) (.byte 29)).wellFormed = true ∧
    encode (.immToRegMem 0 (.disp8 .bxSi 4) (.byte 29)) = [0xC6, 0x40, 0x04, 0x1D] ∧
    ∀ k < 4, (start [0xC6, 0x40, 0x04, 0x1D]).streamRead k = .ok ([0xC6, 0x40, 0x04, 0x1D].getD k 0) := by decide

/-- A meaning of each kind answers a next state. -/
theorem witness_MeaningsFrame :
    (∃ t, exec (.immToReg 0 (.word 9)) (start [0xB8, 0x09, 0x00]) = .next t ∧
      isSegmentForm (Instr.immToReg 0 (.word 9)).variant = false) ∧
    (∃ t, exec .regMemToSeg (start [0x8E]) = .next t ∧ isSegmentForm Instr.regMemToSeg.variant = true) :=
  ⟨⟨_, rfl, rfl⟩, ⟨_, rfl, rfl⟩⟩

/-! ## The stream -/

/-- Inside the stream at its two ends, just past it, and at `cur = L`. -/
theorem witness_StreamReadAnswersTheByteOrRaises :
    0 < (start [0x89, 0xD9]).L ∧ 1 < (start [0x89, 0xD9]).L ∧ (start [0x89, 0xD9]).L ≤ 2 ∧
    ((start []).st = .scanning ∧ (start []).cur = (start []).L) ∧
    (start [0x89, 0xD9]).streamRead 1 = .ok 0xD9 ∧
    (start [0x89, 0xD9]).streamRead 2 = .error (.truncated 2) := by decide

/-- A step of each kind. -/
theorem witness_NoStepWritesTheStream :
    ∀ bytes ∈ [[], [0x89#8, 0xD9], [0x89], [0x00], [0x8E]],
      ∃ t, step (start bytes) = .next t ∧ t.L = bytes.length :=
  nexts_of start (by decide)

/-! ## Operands and immediates -/

/-- Each mod, with and without data bytes, and the displacements at the ends of their ranges. -/
theorem witness_ResolverOperandByMod :
    ∀ a ∈ [([0x88, 0xC7], 0x88#8, 0xC7#8), ([0x8A, 0x00], 0x8A, 0x00), ([0x8A, 0x07], 0x8A, 0x07),
        ([0x8B, 0x56, 0x80], 0x8B, 0x56), ([0x88, 0x47, 0x7F], 0x88, 0x47), ([0x8B, 0x86, 0x00, 0x80], 0x8B, 0x86),
        ([0x89, 0x87, 0xFF, 0x7F], 0x89, 0x87), ([0xC7, 0xC1, 0x0C, 0x00], 0xC7, 0xC1),
        ([0xC6, 0x46, 0xFF, 0x80], 0xC6, 0x46)],
      ∃ t, step (start a.1) = .next t ∧ ((start a.1).streamRead (start a.1).cur = .ok a.2.1 ∧
        (a.2.1 &&& 0xFC = 0x88 ∨ a.2.1 &&& 0xFE = 0xC6) ∧
        (start a.1).streamRead ((start a.1).cur + 1) = .ok a.2.2 ∧ t.recs = (start a.1).recs ++ [lastRec t]) :=
  nexts_of (fun a : List Byte × _ => start a.1) (by decide)

/-- The direct address at both ends of its range, in both variants that have it. -/
theorem witness_DirectAddressIsUnsignedAndLittleEndian :
    ∀ a ∈ [([0x8A, 0x16, 0xFF, 0xFF], 0x8A#8, 0x16#8), ([0x8B, 0x1E, 0x82, 0x0D], 0x8B, 0x1E),
        ([0xC7, 0x06, 0x00, 0x00, 0xFF, 0xFF], 0xC7, 0x06)],
      ∃ t, step (start a.1) = .next t ∧ ((start a.1).streamRead (start a.1).cur = .ok a.2.1 ∧
        (a.2.1 &&& 0xFC = 0x88 ∨ a.2.1 &&& 0xFE = 0xC6) ∧
        (start a.1).streamRead ((start a.1).cur + 1) = .ok a.2.2 ∧
        Pseudocode.bits a.2.2 7 6 = 0 ∧ Pseudocode.bits a.2.2 2 0 = 6 ∧
        (start a.1).streamRead ((start a.1).cur + 2) = .ok (a.1.getD 2 0) ∧
        (start a.1).streamRead ((start a.1).cur + 3) = .ok (a.1.getD 3 0) ∧ t.recs = (start a.1).recs ++ [lastRec t]) :=
  nexts_of (fun a : List Byte × _ => start a.1) (by decide)

/-- Both variants that have an immediate, both widths, whole and truncated; `a.2` is the offset `p`. The immediates stand
at the ends of their ranges. -/
theorem witness_ImmediateReaderValueAndTag :
    (∀ a ∈ [([0xC6, 0x46, 0xFF, 0x80], 3), ([0xC6, 0xC3, 0x7F], 2), ([0xC7, 0x04, 0x00, 0x80], 2),
        ([0xC7, 0x06, 0x10, 0x00, 0xFF, 0x7F], 4), ([0xC6, 0x40, 0x04], 3), ([0xC7, 0xC1], 2),
        ([0xC7, 0x06, 0x10, 0x00, 0x05], 4)],
      (start a.1).st = .scanning ∧ (start a.1).streamRead 0 = .ok (a.1.getD 0 0) ∧
        (a.1.getD 0 0 &&& 0xFE = 0xC6 ∧ a.2 ≤ (start a.1).L ∧ (start a.1).streamRead 1 = .ok (a.1.getD 1 0) ∧
          a.2 = 2 + Pseudocode.dispLen (Pseudocode.bits (a.1.getD 1 0) 7 6) (Pseudocode.bits (a.1.getD 1 0) 2 0))) ∧
    (∀ a ∈ [([0xB0#8, 0x80], 1), ([0xBF, 0xFF, 0x7F], 1), ([0xB0], 1), ([0xB8], 1), ([0xB8, 0x09], 1)],
      (start a.1).st = .scanning ∧ (start a.1).streamRead 0 = .ok (a.1.getD 0 0) ∧
        (a.1.getD 0 0 &&& 0xF0 = 0xB0 ∧ a.2 = 1)) ∧
    ((start [0xC6, 0x40, 0x04]).L ≤ 3 ∧ (start [0xB8]).L ≤ 1 ∧ 4 + 1 = (start [0xC7, 0x06, 0x10, 0x00, 0x05]).L ∧
      1 + 1 = (start [0xB8, 0x09]).L) := by decide

/-- The first and the last register name of each width. -/
theorem witness_RegisterNamesByIndexAndWidth :
    ∀ a ∈ [(0, [0xB0#8, 0x80]), (7, [0xB7, 0xFF]), (0, [0xB8, 0x00, 0x80]), (7, [0xBF, 0xFF, 0x7F])],
      (start a.2).st = .scanning ∧ a.1 < 8 ∧ (start a.2).streamRead 1 = .ok (a.2.getD 1 0) ∧
      ((start a.2).streamRead 0 = .ok (BitVec.ofNat 8 (0xB0 + a.1)) ∨
        ((start a.2).streamRead 0 = .ok (BitVec.ofNat 8 (0xB8 + a.1)) ∧
          (start a.2).streamRead 2 = .ok (a.2.getD 2 0))) := by decide

/-- Register and memory operands, both directions and widths. -/
theorem witness_RegMemOperandsShareTheWidth :
    ∀ a ∈ [([0x88, 0xE5], 0x88#8), ([0x8B, 0xCB], 0x8B), ([0x8A, 0x03], 0x8A), ([0x89, 0x07], 0x89)],
      ∃ t, step (start a.1) = .next t ∧ ((start a.1).streamRead (start a.1).cur = .ok a.2 ∧
        a.2 &&& 0xFC = 0x88 ∧ t.recs = (start a.1).recs ++ [lastRec t]) :=
  nexts_of (fun a : List Byte × _ => start a.1) (by decide)

/-- The ends of each clause's range. -/
theorem witness_ArithmeticLaws :
    ((0#8).toNat ≤ 127 ∧ (127#8).toNat ≤ 127) ∧ (128 ≤ (128#8).toNat ∧ 128 ≤ (255#8).toNat) ∧
    (0x7FFF#16).toNat ≤ 32767 ∧ (32768 ≤ (0x8000#16).toNat ∧ 32768 ≤ (0xFFFF#16).toNat) ∧
    sext16 0x80 = -128 ∧ sext16 0xFF = -1 ∧ s16 0x8000 = -32768 ∧ s16 0xFFFF = -1 ∧ u16le 0xFB 0x09 = 2555 := by decide

/-! ## Text -/

/-- A displacement of each sign, at the ends of its range. -/
theorem witness_MemoryTextShowsSignAndMagnitude :
    ((0 : Int) = 0 ∧ memText (.baseDisp .bp 0) = "[bp]") ∧
    (0 < (32767 : Int) ∧ memText (.baseDisp .bx 32767) = "[bx + 32767]") ∧
    ((-32768 : Int) < 0 ∧ memText (.baseDisp .bp (-32768)) = "[bp - 32768]") := by decide

/-- The resolver's answers by mod, with displacement 0 too. -/
theorem witness_BaseTermIsIndependentOfTheDisplacement :
    (readRmForm (listReader []) 0 7 0 = .ok (.baseOnly .bx, 0) ∧ (0 : BitVec 2) ≠ 3 ∧ (7 : BitVec 3) ≠ 6) ∧
    (readRmForm (listReader [0x00]) 1 6 0 = .ok (.disp8 .bp 0, 1) ∧ (1 : BitVec 2) ≠ 3) ∧
    (readRmForm (listReader [0x00, 0x00]) 2 0 0 = .ok (.disp16 .bxSi 0, 2) ∧ (2 : BitVec 2) ≠ 3) := by decide

/-- The variants with an immediate, both widths, and one without. The first two streams are R102's. -/
theorem witness_WidthTagsAreFixedPerVariant :
    (∀ a ∈ [([0xC7#8, 0xC1, 0x0C, 0x00], OpcodeVariant.ImmToRegMem), ([0xC6, 0xC3, 0xFF], .ImmToRegMem),
        ([0xB0, 0xFF], .ImmToReg), ([0xB9, 0xF4, 0xFF], .ImmToReg), ([0x89, 0xD9], .RegMemToFromReg),
        ([0xA1, 0xFB, 0x09], .MemToAcc)],
      ∃ t, step (start a.1) = .next t ∧ (t.recs = (start a.1).recs ++ [lastRec t] ∧ (lastRec t).variant = a.2)) ∧
    (∀ bytes ∈ [[0xC7#8, 0xC1, 0x0C, 0x00], [0xC6, 0xC3, 0xFF]], (start bytes).st = .scanning ∧
      ∀ k < bytes.length, (start bytes).streamRead ((start bytes).cur + k) = .ok (bytes.getD k 0)) :=
  ⟨nexts_of (fun a : List Byte × _ => start a.1) (by decide), by decide⟩

/-- A step that appends a line. -/
theorem witness_LinesHaveTheCanonicalForm :
    ∀ a ∈ [([0x88#8, 0xE5], "mov ch, ah"), ([0xC6, 0x46, 0xFF, 0x80], "mov [bp - 1], byte -128")],
      ∃ t, step (start a.1) = .next t ∧ t.out = (start a.1).out ++ [a.2] :=
  nexts_of (fun a : List Byte × _ => start a.1) (by decide)

/-! ## The instructions: each completes -/

/-- An r/m operand of every form is well formed. -/
theorem witness_RegMemToFromRegCommits :
    ∀ rm ∈ [RmForm.register 7, .baseOnly .bx, .direct 0xFFFF, .disp8 .bp 0x80, .disp16 .bp 0x8000],
      rm.wellFormed = true := by decide

/-- The same, of ImmToRegMem's destination. -/
theorem witness_ImmToRegMemCommits :
    ∀ rm ∈ [RmForm.register 0, .baseOnly .bxSi, .direct 0, .disp8 .bxSi 0x7F, .disp16 .bx 0x7FFF],
      rm.wellFormed = true := by decide

/-- Both values of the parameter, and the accumulator name each calls for. -/
theorem witness_AccumulatorFormsCommit :
    ((start []).params.accHonorsW = false → RegName.ax = .ax) ∧
    ((start []).params.accHonorsW = true → RegName.ax = if false then .ax else .al) ∧
    ((State.startOver [] { accHonorsW := true }).params.accHonorsW = false → RegName.al = .ax) ∧
    ((State.startOver [] { accHonorsW := true }).params.accHonorsW = true →
      RegName.al = if false then .ax else .al) := by decide

/-- A cursor at the last byte of the stream. -/
theorem witness_SegmentFormsStopTheRun : (start [0x8E]).cur < (start [0x8E]).L := by decide

/-! ## The instructions, from the bytes of the stream -/

/-- Whole, truncated at the ModRM byte, truncated in the displacement; and Scenario A. -/
theorem witness_RegMemToFromRegFromBytes :
    (∀ bytes ∈ [[0x88#8, 0xC0], [0x89, 0xD9], [0x8B], [0x8B, 0x86, 0x01]],
      (start bytes).st = .scanning ∧ (start bytes).streamRead 0 = .ok (bytes.getD 0 0) ∧
        bytes.getD 0 0 &&& 0xFC = 0x88) ∧
    (start [0x8B]).streamRead 1 = .error (.truncated 1) ∧
    Pseudocode.resolve (start [0x8B, 0x86, 0x01]).streamRead 2 6 true 2 = .error (.truncated 3) ∧
    Pseudocode.resolve (start [0x89, 0xD9]).streamRead 3 1 true 2 = .ok (.register .cx, 2) := by decide

/-- Whole, and truncated at the ModRM byte, in the displacement and in the data; and Scenario C. -/
theorem witness_ImmToRegMemFromBytes :
    (∀ bytes ∈ [[0xC6#8, 0x40, 0x04, 0x1D], [0xC7], [0xC7, 0x06, 0x10], [0xC7, 0x06, 0x10, 0x00, 0x05]],
      (start bytes).st = .scanning ∧ (start bytes).streamRead 0 = .ok (bytes.getD 0 0) ∧
        bytes.getD 0 0 &&& 0xFE = 0xC6) ∧
    (start [0xC7]).streamRead 1 = .error (.truncated 1) ∧
    Pseudocode.resolve (start [0xC7, 0x06, 0x10]).streamRead 0 6 true 2 = .error (.truncated 3) ∧
    Pseudocode.resolve (start [0xC7, 0x06, 0x10, 0x00, 0x05]).streamRead 0 6 true 2 = .ok (.memory (.direct 16), 4) ∧
    Pseudocode.readImmediate (start [0xC7, 0x06, 0x10, 0x00, 0x05]).streamRead true 4 = .error (.truncated 5) ∧
    Pseudocode.readImmediate (start [0xC6, 0x40, 0x04, 0x1D]).streamRead false 3 = .ok (.immediate 29 .byte, 4) := by
  decide

/-- Both ends of the lead byte's range, whole and truncated; and Scenario B. -/
theorem witness_ImmToRegFromBytes :
    (∀ bytes ∈ [[0xB0#8, 0xFF], [0xBF, 0xFF, 0x7F], [0xB0], [0xB8, 0x09], [0xB8, 0x09, 0x00]],
      (start bytes).st = .scanning ∧ (start bytes).streamRead 0 = .ok (bytes.getD 0 0) ∧
        bytes.getD 0 0 &&& 0xF0 = 0xB0) ∧
    Pseudocode.readImmediate (start [0xB0]).streamRead false 1 = .error (.truncated 1) ∧
    Pseudocode.readImmediate (start [0xB8, 0x09]).streamRead true 1 = .error (.truncated 2) ∧
    Pseudocode.readImmediate (start [0xB8, 0x09, 0x00]).streamRead true 1 = .ok (.immediate 9 .word, 3) := by decide

/-- Each of the four lead bytes, whole and truncated. -/
theorem witness_AccumulatorFormsFromBytes :
    (∀ bytes ∈ [[0xA0#8, 0x00, 0x00], [0xA1, 0xFB, 0x09], [0xA2, 0xFF, 0xFF], [0xA3, 0xFA, 0x09], [0xA3], [0xA1, 0xFB]],
      (start bytes).st = .scanning ∧ (start bytes).streamRead 0 = .ok (bytes.getD 0 0) ∧
        (bytes.getD 0 0 &&& 0xFE = 0xA0 ∨ bytes.getD 0 0 &&& 0xFE = 0xA2)) ∧
    (start [0xA3]).streamRead 1 = .error (.truncated 1) ∧
    (start [0xA1, 0xFB]).streamRead 1 = .ok 0xFB ∧ (start [0xA1, 0xFB]).streamRead 2 = .error (.truncated 2) ∧
    (start [0xA1, 0xFB, 0x09]).streamRead 1 = .ok 0xFB ∧ (start [0xA1, 0xFB, 0x09]).streamRead 2 = .ok 0x09 := by decide

/-- Each segment form, with bytes after it and without; the step ends the run. -/
theorem witness_SegmentLeadByteStopsTheRun :
    ∀ a ∈ [([0x8E#8], 0x8E#8), ([0x8E, 0xD8], 0x8E), ([0x8C], 0x8C), ([0x8C, 0xC0], 0x8C)],
      ∃ t, step (start a.1) = .next t ∧ ((start a.1).st = .scanning ∧
        (start a.1).streamRead (start a.1).cur = .ok a.2 ∧ t.st = .terminated .unhandledVariant) :=
  nexts_of (fun a : List Byte × _ => start a.1) (by decide)

/-- Two streams that differ in the reg field alone: reg=0 and reg=7 of `C6 C0 05`. -/
theorem witness_ImmToRegMemIgnoresTheRegField :
    let s := start [0xC6, 0xC0, 0x05]
    let u := start [0xC6, 0xF8, 0x05]
    s.st = .scanning ∧ u.st = .scanning ∧ u.cur = s.cur ∧ u.L = s.L ∧ u.out = s.out ∧ u.notice = s.notice ∧
      u.term = s.term ∧ u.recs = s.recs ∧ s.streamRead s.cur = .ok 0xC6 ∧ (0xC6#8 &&& 0xFE) = 0xC6 ∧
      s.streamRead (s.cur + 1) = .ok 0xC0 ∧ u.streamRead (s.cur + 1) = .ok 0xF8 ∧
      Pseudocode.bits 0xF8 7 6 = Pseudocode.bits 0xC0 7 6 ∧ Pseudocode.bits 0xF8 2 0 = Pseudocode.bits 0xC0 2 0 ∧
      ∀ k, k ≠ s.cur + 1 → u.streamRead k = s.streamRead k := by
  refine ⟨by decide, by decide, by decide, by decide, by decide, by decide, by decide, by decide, by decide, by decide,
    by decide, by decide, by decide, by decide, fun k hk => ?_⟩
  match k, hk with
  | 0, _ => decide
  | 1, hk => exact absurd rfl hk
  | 2, _ => decide
  | k + 3, _ => rw [streamRead_ge (Nat.le_add_left 3 k), streamRead_ge (Nat.le_add_left 3 k)]

/-! ## Truncation -/

/-- The ModRM byte, an 8-bit displacement, and each byte of a 16-bit one or of a direct address is missing. -/
theorem witness_RegMemToFromRegTruncation :
    (∀ bytes ∈ [[0x89#8], [0x8B, 0x46], [0x8B, 0x86], [0x8B, 0x86, 0x01], [0x8A, 0x06], [0x8A, 0x06, 0x10]],
      (start bytes).st = .scanning ∧ (start bytes).streamRead 0 = .ok (bytes.getD 0 0) ∧
        bytes.getD 0 0 &&& 0xFC = 0x88) ∧
    (start [0x89]).L ≤ 1 ∧
    (Pseudocode.bits 0x46 7 6 = 1 ∧ (start [0x8B, 0x46]).L ≤ 2) ∧
    (Pseudocode.bits 0x86 7 6 = 2 ∧ (start [0x8B, 0x86]).L ≤ 2 ∧ 3 = (start [0x8B, 0x86, 0x01]).L) ∧
    ((Pseudocode.bits 0x06 7 6 = 0 ∧ Pseudocode.bits 0x06 2 0 = 6) ∧ (start [0x8A, 0x06]).L ≤ 2 ∧
      3 = (start [0x8A, 0x06, 0x10]).L) := by decide

/-- The ModRM byte, each byte of the displacement, and each data byte is missing. -/
theorem witness_ImmToRegMemTruncation :
    (∀ bytes ∈ [[0xC6#8], [0xC7, 0x06], [0xC7, 0x06, 0x10], [0xC6, 0x40, 0x04], [0xC7, 0x06, 0x10, 0x00, 0x05]],
      (start bytes).st = .scanning ∧ (start bytes).streamRead 0 = .ok (bytes.getD 0 0) ∧
        bytes.getD 0 0 &&& 0xFE = 0xC6) ∧
    (start [0xC6]).L ≤ 1 ∧
    (0 < Pseudocode.dispLen (Pseudocode.bits 0x06 7 6) (Pseudocode.bits 0x06 2 0) ∧ (start [0xC7, 0x06]).L ≤ 2 + 0) ∧
    (1 < Pseudocode.dispLen (Pseudocode.bits 0x06 7 6) (Pseudocode.bits 0x06 2 0) ∧
      (start [0xC7, 0x06, 0x10]).L ≤ 2 + 1 ∧ ∀ i < 1, 2 + i < (start [0xC7, 0x06, 0x10]).L) ∧
    (Pseudocode.dispLen (Pseudocode.bits 0x40 7 6) (Pseudocode.bits 0x40 2 0) = 1 ∧
      (∀ j < 1, 2 + j < (start [0xC6, 0x40, 0x04]).L) ∧ (start [0xC6, 0x40, 0x04]).L ≤ 3) ∧
    (Pseudocode.bit 0xC7 0 = true ∧ 4 + 1 = (start [0xC7, 0x06, 0x10, 0x00, 0x05]).L) := by decide

/-- Each clause, and the accumulator address at both ends of its range. -/
theorem witness_ImmToRegAndAccumulatorCorners :
    (∀ bytes ∈ [[0xB0#8], [0xB8, 0x09], [0xA3], [0xA1, 0xFB], [0xA2, 0xFF, 0xFF], [0xA1, 0x00, 0x00], [0xA0, 0x10, 0x00]],
      (start bytes).st = .scanning ∧ (start bytes).streamRead 0 = .ok (bytes.getD 0 0) ∧
        (bytes.getD 0 0 &&& 0xF0 = 0xB0 ∨ bytes.getD 0 0 &&& 0xFE = 0xA0 ∨ bytes.getD 0 0 &&& 0xFE = 0xA2)) ∧
    (start [0xB0]).L ≤ 1 ∧ (Pseudocode.bit 0xB8 3 = true ∧ 2 = (start [0xB8, 0x09]).L) ∧
    (start [0xA3]).L ≤ 1 ∧ 2 = (start [0xA1, 0xFB]).L ∧
    ((start [0xA2, 0xFF, 0xFF]).streamRead 1 = .ok 0xFF ∧ (start [0xA2, 0xFF, 0xFF]).streamRead 2 = .ok 0xFF) ∧
    ((start [0xA1, 0x00, 0x00]).streamRead 1 = .ok 0 ∧ (start [0xA1, 0x00, 0x00]).streamRead 2 = .ok 0) ∧
    ((start [0xA0, 0x10, 0x00]).params = Config.Params.default ∧
      (start [0xA0, 0x10, 0x00]).streamRead 1 = .ok 0x10) := by decide

/-! ## Errors and termination -/

/-- Terminated, at the end of the stream, and before it. -/
theorem witness_StepIsEnabledOnlyWhileScanning :
    (after (start [0x00])).st ≠ .scanning ∧ ((start []).st = .scanning ∧ (start []).cur = (start []).L) ∧
    ((start [0x00]).st = .scanning ∧ (start [0x00]).cur < (start [0x00]).L) := by decide

/-- A step that goes on scanning, the second of its run. -/
theorem witness_CommitWritesRecordLineAndCursor :
    ∀ bytes ∈ [[0x89#8, 0xD9, 0xB8, 0x09, 0x00]],
      ∃ t, step (after (start bytes)) = .next t ∧ (t.st = .scanning ∧ t.cur = 5) :=
  nexts_of (fun bytes => after (start bytes)) (by decide)

/-- Lead bytes at the ends of the ranges that match no row; the step ends with UnsupportedOpcode. -/
theorem witness_UnsupportedLeadByteStopsTheRun :
    ∀ a ∈ [([0x00#8], 0x00#8), ([0x87], 0x87), ([0x8D], 0x8D), ([0xA4], 0xA4), ([0xFF], 0xFF)],
      ∃ t, step (start a.1) = .next t ∧ ((start a.1).st = .scanning ∧
        (start a.1).streamRead (start a.1).cur = .ok a.2 ∧ (∀ r ∈ patternTable, a.2 &&& r.mask ≠ r.expected) ∧
        t.st = .terminated (.error .unsupportedOpcode)) :=
  nexts_of (fun a : List Byte × _ => start a.1) (by decide)

/-- Each of the four reasons, and a commit. -/
theorem witness_TerminationPriority :
    ∀ a ∈ [([], Fsm.terminated .exhausted), ([0x90#8], .terminated (.error .unsupportedOpcode)),
        ([0x8C], .terminated .unhandledVariant), ([0xC7, 0x06, 0x10], .terminated (.error .truncatedInstruction)),
        ([0xB0, 0x01], .scanning)],
      ∃ t, step (start a.1) = .next t ∧ ((start a.1).cur ≤ (start a.1).L ∧ t.st = a.2) :=
  nexts_of (fun a : List Byte × _ => start a.1) (by decide)

/-- Each of the four reasons, after a commit. -/
theorem witness_StopsArePrecise :
    ∀ a ∈ [([0xB0#8, 0x01], Reason.exhausted), ([0xB0, 0x01, 0x90], .error .unsupportedOpcode),
        ([0xB0, 0x01, 0x8C], .unhandledVariant), ([0xB0, 0x01, 0xC7], .error .truncatedInstruction)],
      ∃ t, step (after (start a.1)) = .next t ∧ t.st = .terminated a.2 :=
  nexts_of (fun a : List Byte × _ => after (start a.1)) (by decide)

/-- Each of the four codes. -/
theorem witness_ReasonCodesAndRecords :
    ∀ a ∈ [([], 0), ([0x90#8], 1), ([0xA1, 0xFB], 2), ([0x8E], 3)],
      ∃ t, step (start a.1) = .next t ∧ ((start a.1).cur ≤ (start a.1).L ∧ (start a.1).term = none ∧
        t.term.map (fun info => info.reason.code) = some a.2) :=
  nexts_of (fun a : List Byte × _ => start a.1) (by decide)

/-- A terminated state, and a run of no step from it. -/
theorem witness_TerminatedIsLeftOnlyByReset :
    (after (start [0x00])).st = .terminated (.error .unsupportedOpcode) ∧
    run 0 (after (start [0x00])) = .next (after (start [0x00])) := ⟨by decide, rfl⟩

/-- Each segment form, and a step on another lead byte. -/
theorem witness_NoticeNamesTheSegmentForm :
    ∀ a ∈ [([0x8E#8], some OpcodeVariant.RegMemToSeg), ([0x8C], some .SegToRegMem), ([0xB0, 0x01], none), ([], none)],
      ∃ t, step (start a.1) = .next t ∧ t.notice = a.2 :=
  nexts_of (fun a : List Byte × _ => start a.1) (by decide)

/-- A state whose lines are its records' renderings, before a commit and before a stop. -/
theorem witness_OutputsAppendOneLinePerRecord :
    ∀ bytes ∈ [[0xB0#8, 0x01, 0x89, 0xD9], [0xB0, 0x01, 0x90]],
      ∃ t, step (after (start bytes)) = .next t ∧ (after (start bytes)).out = (after (start bytes)).recs.map render :=
  nexts_of (fun bytes => after (start bytes)) (by decide)

/-! ## Reset and runs -/

/-- Two states of different history over one stream, and a terminated state. -/
theorem witness_ResetPutsEveryElement :
    let s := start [0xB0, 0x01]
    ((after s).B = s.B ∧ (after s).L = s.L ∧ (after s).params = s.params ∧ after s ≠ s) ∧
    (after (start [0x00])).st = .terminated (.error .unsupportedOpcode) := by decide

/-- A run of two steps from a reset in the middle of another run. -/
theorem witness_ResetKeepsTheStreamForTheRun :
    run 2 (after (start [0xB0, 0x01])).applyReset = .next (after (after (start [0xB0, 0x01]))) := rfl

/-- A scanning state, and two states over one stream. -/
theorem witness_RunsFromResetAreDeterministic :
    let s := start [0xB0, 0x01]
    s.st = .scanning ∧ (after s).B = s.B ∧ (after s).L = s.L ∧ (after s).params = s.params := by decide

/-- The empty stream is in canonical form, and so is one with a zero byte. -/
theorem witness_InvariantHoldsAfterReset :
    State.reset.streamWf ∧ (start [0x00, 0xFF]).streamWf := by
  constructor <;> exact ⟨by decide, by decide⟩

/-- A state with the invariant, whose step commits and whose next step ends the run. -/
theorem witness_InvariantIsKeptByEveryStep :
    (start [0xB0, 0x01]).Inv ∧ (∃ t, step (start [0xB0, 0x01]) = .next t) ∧
    ∃ t, step (after (start [0xB0, 0x01])) = .next t :=
  ⟨⟨⟨by decide, by decide⟩, by decide, rfl, rfl, ⟨rfl, rfl⟩⟩, ⟨_, rfl⟩, ⟨_, rfl⟩⟩

/-- A cursor inside the stream, and one at its end. -/
theorem witness_CursorStaysInTheStream :
    ∀ s ∈ [start [0xB0, 0x01], start []], ∃ t, step s = .next t ∧ s.cur ≤ s.L :=
  nexts_of id (by decide)

/-- The empty stream fits every build, whatever `OFFSET_BITS` is. -/
theorem witness_CursorFitsTheBuild :
    (start []).fitsBuild ∧ (start []).cur ≤ (start []).L ∧ ∃ t, step (start []) = .next t :=
  ⟨Nat.two_pow_pos _, Nat.le_refl _, ⟨_, rfl⟩⟩

/-- A state with the invariant and two records, the longest form among them. -/
theorem witness_RecordsAreInRange :
    let s := after (after (start [0xB0, 0x80, 0xC7, 0x06, 0x10, 0x00, 0xFF, 0xFF]))
    s.Inv ∧ s.recs.length = 2 :=
  ⟨⟨⟨by decide, by decide⟩, by decide, by decide, ⟨rfl, rfl, rfl, rfl, rfl⟩, ⟨rfl, rfl⟩⟩, by decide⟩

/-- A run that ended Exhausted with the invariant, over a stream of one instruction. -/
theorem witness_ExhaustedRunDecodesEveryByte :
    let s := after (after (start [0xB0, 0x01]))
    s.Inv ∧ s.st = .terminated .exhausted :=
  ⟨⟨⟨by decide, by decide⟩, by decide, by decide, ⟨rfl, rfl, rfl⟩, ⟨_, rfl, rfl, rfl, rfl, rfl, rfl, rfl⟩⟩, by decide⟩

/-- A scanning state at the end of the stream, and one before it, whose step goes on scanning. -/
theorem witness_EveryRunTerminates :
    ((start []).st = .scanning ∧ (start []).cur ≤ (start []).L) ∧
    ((start [0xB0, 0x01]).st = .scanning ∧ (start [0xB0, 0x01]).cur ≤ (start [0xB0, 0x01]).L) ∧
    (after (start [0xB0, 0x01])).st = .scanning := by decide

/-- A scanning state before the end of the stream, and one at it. -/
theorem witness_StepIsTheSpecsPseudocode :
    ∀ s ∈ [start [0xB0, 0x01], start []], s.st = .scanning ∧ s.cur ≤ s.L := by decide

/-- The same bytes at the start of one stream and after an instruction of another: a whole instruction, a truncated one, a
segment form, and none. -/
theorem witness_DecodingIgnoresPlaceAndHistory :
    ∀ a ∈ [([0xB0#8, 0x01], [0x89#8, 0xD9, 0xB0, 0x01]), ([0xB8, 0x01], [0x89, 0xD9, 0xB8, 0x01]),
        ([0x8E], [0x89, 0xD9, 0x8E]), ([], [0x89, 0xD9])],
      ∃ t, step (start a.1) = .next t ∧ ((start a.1).st = .scanning ∧ (after (start a.2)).st = .scanning ∧
        (after (start a.2)).params = (start a.1).params ∧ (start a.1).cur ≤ (start a.1).L ∧
        (after (start a.2)).L = (after (start a.2)).cur + ((start a.1).L - (start a.1).cur) ∧
        ∀ k < (start a.1).L, (after (start a.2)).streamRead ((after (start a.2)).cur + k) = (start a.1).streamRead k) :=
  nexts_of (fun a : List Byte × _ => start a.1) (by decide)

end Sys2Proof.Tests
end

section
/-! PROOFS. The stream's canonical form before a run, and the invariant that reset establishes over it (10_state.md
section 7, 70_reset_and_hazards.md section 1). -/

namespace Sys2Proof.Machine

/-! ## The canonical form of a stream before a run -/

/-- The default empty stream is in canonical form. -/
theorem reset_streamWf : State.reset.streamWf := ⟨reset_B_wf, List.forall_mem_nil _⟩

/-- Whatever bytes the caller supplies, the stream lists only offsets of those bytes, in canonical form. -/
theorem supply_streamWf (s : State) (bytes : List Byte) (params : Config.Params) :
    (s.supply bytes params).streamWf := by
  refine ⟨supply_B_wf s bytes params, fun c hc => ?_⟩
  rcases Memory.mem_writeBytes hc with hnil | ⟨-, hlt⟩
  · exact absurd hnil List.not_mem_nil
  · simpa using hlt

/-- The canonical form is a property of the stream and its length alone, which reset leaves as they are (R161). -/
@[simp] theorem applyReset_streamWf (s : State) : s.applyReset.streamWf ↔ s.streamWf := Iff.rfl

/-! ## The invariant after reset -/

/-- A scanning state has stopped nowhere: no termination record and no notice. -/
theorem stopWf_of_scanning {s : State} (hst : s.st = .scanning) :
    s.stopWf ↔ s.term = none ∧ s.notice = none := by
  simp [State.stopWf, hst]

/-- Reset establishes the invariant over every stream in canonical form: no byte before the cursor is left to decode, so
no record and no line is due. -/
theorem applyReset_inv {s : State} (hs : s.streamWf) : s.applyReset.Inv where
  stream := (applyReset_streamWf s).mpr hs
  cursor := by simp
  lines := by simp
  tiled := by simp [Tiles]
  stop := (stopWf_of_scanning (applyReset_st s)).mpr ⟨applyReset_term s, applyReset_notice s⟩

/-- The machine's first state is a fixed point of reset. -/
theorem reset_applyReset : State.reset.applyReset = State.reset := rfl

/-- Settles O52: each of the three states is the reset of one whose stream is in canonical form. -/
theorem invariantHoldsAfterReset : Obligations.InvariantHoldsAfterReset := by
  refine ⟨?_, fun _ => applyReset_inv, fun bytes params => ?_⟩
  · rw [← reset_applyReset]
    exact applyReset_inv reset_streamWf
  · exact applyReset_inv (supply_streamWf State.reset bytes params)

end Sys2Proof.Machine
end

section
/-! PROOFS. The read primitive (20_memory.md section 1). -/

namespace Sys2Proof.Machine

/-- Settles O11: the read answers or raises as the offset lies before or past the end; at `cur = L` the step is the end
of the stream, whose reason is Exhausted. -/
theorem streamReadAnswersTheByteOrRaises : Obligations.StreamReadAnswersTheByteOrRaises := by
  refine fun s k => ⟨streamRead_lt, streamRead_ge, fun hst hc => ?_⟩
  exact ⟨endOfStream s, step_end hst hc, terminate_st .exhausted none s⟩

end Sys2Proof.Machine
end

section
/-! PROOFS. The field extractor (30_encoding.md R45): a slice of a byte in the spec's own notation (R7) is a mask and a
shift, and each field is such a slice. -/

namespace Sys2Proof.Machine

/-- A slice is the shifted byte under a mask of as many ones as the slice has bits. -/
theorem bits_eq_shift_and_mask (v : Byte) (hi lo : Nat) :
    Pseudocode.bits v hi lo = (v.toNat >>> lo) &&& (2 ^ (hi - lo + 1) - 1) :=
  (Nat.and_two_pow_sub_one_eq_mod _ _).symm

/-- A single bit, read as a number, is the shifted byte under the mask 1. -/
theorem bit_toNat (v : Byte) (i : Nat) : (Pseudocode.bit v i).toNat = (v.toNat >>> i) &&& 1 := by
  have hbits : Pseudocode.bits v i i = (v.toNat >>> i) &&& 1 := by simp [bits_eq_shift_and_mask]
  rw [Pseudocode.bit, hbits]
  obtain h | h := Nat.mod_two_eq_zero_or_one (v.toNat >>> i) <;> simp [Nat.and_one_is_mod, h]

/-- Settles O5: each field is its slice of the byte (R45), and each slice is mask and shift. -/
theorem fieldExtractorIsMaskAndShift : Obligations.FieldExtractorIsMaskAndShift := by
  intro op m
  refine ⟨?_, ?_, ?_, ?_, ?_, ?_, ?_⟩
  · rw [dBit_eq_bit, bit_toNat]
  · rw [wBit_eq_bit, bit_toNat, Nat.shiftRight_zero]
  · rw [wImmBit_eq_bit, bit_toNat]
  · exact (regImmField_toNat op).trans (bits_eq_shift_and_mask op 2 0)
  · exact (modField_toNat m).trans (bits_eq_shift_and_mask m 7 6)
  · exact (regField_toNat m).trans (bits_eq_shift_and_mask m 5 3)
  · exact (rmField_toNat m).trans (bits_eq_shift_and_mask m 2 0)

end Sys2Proof.Machine
end

section
/-! PROOFS. The decode loop (40_decode_loop.md): a step inside the stream is the spec's `DecodeOne`, committed or stopped
(R60), a scanning state always has a step, and reset forgets all but the stream and the parameters (R66). -/

namespace Sys2Proof.Machine

/-! ## The pseudocode's decode procedures, in the decoder's reads -/

/-- `DecodeRMR` (R90) is the ModRM byte and the r/m form, then the record they stand for. -/
theorem decodeRMR_eq (read : ByteReader) (op : Byte) (start p : Nat) :
    Pseudocode.decodeRMR read op start p = (read p).bind fun m =>
      (readRmForm read (modField m) (rmField m) (p + 1)).map fun fq =>
        ({ leadAt := start, len := fq.2 - start, variant := .RegMemToFromReg
           fields := Pseudocode.modRmFields (some (dBit op)) (some (wBit op)) m
           dst := if dBit op then .register (regName (regField m) (wBit op)) else rmOperand fq.1 (wBit op)
           src := if dBit op then rmOperand fq.1 (wBit op) else .register (regName (regField m) (wBit op)) }, fq.2) := by
  simp only [Pseudocode.decodeRMR, ← modField_toNat, ← rmField_toNat, ← regField_toNat, resolve_eq, registerOf_toNat,
    ← dBit_eq_bit, ← wBit_eq_bit]
  rcases read p with e | m
  · rfl
  · simp only [bind, Except.bind]
    cases readRmForm read (modField m) (rmField m) (p + 1) <;> rfl

/-- `DecodeIRM` (R100) is the ModRM byte, the r/m form and the data, then the record they stand for. -/
theorem decodeIRM_eq (read : ByteReader) (op : Byte) (start p : Nat) :
    Pseudocode.decodeIRM read op start p = (read p).bind fun m =>
      (readRmForm read (modField m) (rmField m) (p + 1)).bind fun fq =>
        (readImmData read (wBit op) fq.2).map fun dq =>
          ({ leadAt := start, len := dq.2 - start, variant := .ImmToRegMem
             fields := Pseudocode.modRmFields none (some (wBit op)) m
             dst := rmOperand fq.1 (wBit op), src := immOperand dq.1 }, dq.2) := by
  simp only [Pseudocode.decodeIRM, ← modField_toNat, ← rmField_toNat, resolve_eq, readImmediate_eq, ← wBit_eq_bit]
  rcases read p with e | m
  · rfl
  · simp only [bind, Except.bind]
    rcases readRmForm read (modField m) (rmField m) (p + 1) with e | ⟨f, q⟩
    · rfl
    · simp only [Except.map]
      cases readImmData read (wBit op) q <;> rfl

/-- `DecodeIR` (R110) is the data, then the record they stand for. -/
theorem decodeIR_eq (read : ByteReader) (op : Byte) (start p : Nat) :
    Pseudocode.decodeIR read op start p = (readImmData read (wImmBit op) p).map fun dq =>
      ({ leadAt := start, len := dq.2 - start, variant := .ImmToReg
         fields := { w := some (wImmBit op), reg := some (regImmField op) }
         dst := .register (regName (regImmField op) (wImmBit op)), src := immOperand dq.1 }, dq.2) := by
  simp only [Pseudocode.decodeIR, ← regImmField_toNat, registerOf_toNat, readImmediate_eq, ← wImmBit_eq_bit,
    BitVec.ofNat_toNat, BitVec.setWidth_eq]
  cases readImmData read (wImmBit op) p <;> rfl

/-- `DecodeMA` (R120) is the address, then the record it stands for. -/
theorem decodeMA_eq (params : Config.Params) (read : ByteReader) (op : Byte) (start p : Nat) :
    Pseudocode.decodeMA params read op start p = (readWordLe read p).map fun aq =>
      ({ leadAt := start, len := 3, variant := .MemToAcc, fields := { w := some (wBit op) }
         dst := .register (accName params (wBit op)), src := .memory (.direct aq.1.toNat) }, aq.2) := by
  simp only [Pseudocode.decodeMA, readWordLe, ← wBit_eq_bit, ← wordLe_toNat]
  rcases read p with e | lo
  · rfl
  · cases read (p + 1) <;> rfl

/-- `DecodeAM` (R121) is the address, then the record it stands for. -/
theorem decodeAM_eq (params : Config.Params) (read : ByteReader) (op : Byte) (start p : Nat) :
    Pseudocode.decodeAM params read op start p = (readWordLe read p).map fun aq =>
      ({ leadAt := start, len := 3, variant := .AccToMem, fields := { w := some (wBit op) }
         dst := .memory (.direct aq.1.toNat), src := .register (accName params (wBit op)) }, aq.2) := by
  simp only [Pseudocode.decodeAM, readWordLe, ← wBit_eq_bit, ← wordLe_toNat]
  rcases read p with e | lo
  · rfl
  · cases read (p + 1) <;> rfl

/-! ## `DecodeOne` against the decoder and the meanings -/

/-- Where the decoder raises, `DecodeOne` raises the same error (R61). -/
theorem pseudocode_decodeOne_of_error (params : Config.Params) {read : ByteReader} {start : Nat} {e : DecodeError}
    (h : decodeOne read start = .error e) : Pseudocode.decodeOne params read start = .error (.decode e) := by
  unfold Pseudocode.decodeOne
  rcases decodeOne_error_cases h with hop | ⟨op, hop, hcases⟩
  · rw [hop]
  · rw [hop]
    rcases hcases with ⟨hc, rfl⟩ | ⟨hc | hc, hm⟩ | ⟨hc | hc, m, hm, hf⟩ | ⟨hc, m, rm, q, hm, hf, hd⟩ | ⟨hc, hd⟩ |
      ⟨hc | hc, ha⟩
    · simp [hc]
    · simp [hc, decodeRMR_eq, hm, Except.bind, Except.mapError]
    · simp [hc, decodeIRM_eq, hm, Except.bind, Except.mapError]
    · simp [hc, decodeRMR_eq, hm, hf, Except.bind, Except.map, Except.mapError]
    · simp [hc, decodeIRM_eq, hm, hf, Except.bind, Except.mapError]
    · simp [hc, decodeIRM_eq, hm, hf, hd, Except.bind, Except.map, Except.mapError]
    · simp [hc, decodeIR_eq, hd, Except.map, Except.mapError]
    · simp [hc, decodeMA_eq, ha, Except.map, Except.mapError]
    · simp [hc, decodeAM_eq, ha, Except.map, Except.mapError]

/-- Where the decoder answers an instruction, `DecodeOne` either returns the record that the instruction's meaning
commits, or raises the UnhandledVariant that its meaning raises (R61). -/
theorem pseudocode_decodeOne_of_fetch {s : State} {i : Instr} {q : Nat} (h : s.fetchInstr = .ok (i, q)) :
    (∃ r, Pseudocode.decodeOne s.params s.streamRead s.cur = .ok (r, s.cur + r.len) ∧
      exec i s = .next (commit r s)) ∨
    (∃ v, Pseudocode.decodeOne s.params s.streamRead s.cur = .error (.unhandled v) ∧
      exec i s = .next (raiseUnhandled v s)) := by
  have hq : q = s.cur + i.length := (decodeOne_reads h).1
  unfold Pseudocode.decodeOne
  obtain ⟨op, hop, hcases⟩ := decodeOne_ok_cases h
  rw [hop]
  rcases hcases with ⟨hc, m, rm, hm, hf, rfl⟩ | ⟨hc, m, rm, q', imm, hm, hf, hd, rfl⟩ | ⟨hc, imm, hd, rfl⟩ |
    ⟨hc, a, ha, rfl⟩ | ⟨hc, a, ha, rfl⟩ | ⟨hc, rfl, -⟩ | ⟨hc, rfl, -⟩
  · obtain ⟨-, hmod, hrm, -⟩ := readRmForm_spec hf
    refine .inl ⟨_, ?_, rfl⟩
    simp [hc, decodeRMR_eq, hm, hf, hq, hmod, hrm, modRmFields_eq, Except.bind, Except.map, Except.mapError]
  · obtain ⟨-, hmod, hrm, -⟩ := readRmForm_spec hf
    obtain ⟨hw, -⟩ := readImmData_spec hd
    refine .inl ⟨_, ?_, rfl⟩
    simp [hc, decodeIRM_eq, hm, hf, hd, hq, hmod, hrm, hw, modRmFields_eq, Except.bind, Except.map,
      Except.mapError]
  · obtain ⟨hw, -⟩ := readImmData_spec hd
    refine .inl ⟨_, ?_, rfl⟩
    simp [hc, decodeIR_eq, hd, hq, hw, Except.map, Except.mapError]
  · refine .inl ⟨_, ?_, rfl⟩
    simp [hc, decodeMA_eq, ha, hq, Instr.length, Except.map, Except.mapError]
  · refine .inl ⟨_, ?_, rfl⟩
    simp [hc, decodeAM_eq, ha, hq, Instr.length, Except.map, Except.mapError]
  · exact .inr ⟨.RegMemToSeg, by simp [hc], rfl⟩
  · exact .inr ⟨.SegToRegMem, by simp [hc], rfl⟩

/-! ## The state a step leaves -/

/-- A commit from a scanning state is the three writes of R62. -/
theorem commit_eq_committed {s : State} (hst : s.st = .scanning) (r : Decoded) :
    commit r s = Pseudocode.committed s r (s.cur + r.len) := by
  rw [commit, ← hst]; rfl

/-- A decode error raised inside the stream is the termination of R63: the record names the byte at the cursor. -/
theorem raise_eq_stopped {s : State} (hlt : s.cur < s.L) (e : DecodeError) :
    raise e (beginDecode s) = Pseudocode.stopped s (.decode e) := by
  cases e <;> simp [raise, terminate, leadByte_lt hlt, Pseudocode.stopped, Pseudocode.reasonOf, Pseudocode.needOf]

/-- UnhandledVariant raised inside the stream is the termination of R63, with the notice of R14. -/
theorem raiseUnhandled_eq_stopped {s : State} (hlt : s.cur < s.L) (v : OpcodeVariant) :
    raiseUnhandled v s = Pseudocode.stopped s (.unhandled v) := by
  simp [raiseUnhandled, terminate, leadByte_lt hlt, Pseudocode.stopped, Pseudocode.reasonOf, Pseudocode.needOf]

/-- At the end of the stream the termination record names the stream's length and no byte (R60). -/
theorem endOfStream_eq_exhausted {s : State} (hc : s.cur = s.L) : endOfStream s = Pseudocode.exhausted s := by
  simp [endOfStream, terminate, leadByte_ge hc.ge, Pseudocode.exhausted, hc]

/-- A step before the end of the stream performs `DecodeOne(cur)`, and commits what it returns or terminates with what it
raises (R60). -/
theorem step_before_end {s : State} (hst : s.st = .scanning) (hlt : s.cur < s.L) :
    (∃ r, Pseudocode.decodeOne s.params s.streamRead s.cur = .ok (r, s.cur + r.len) ∧
      step s = .next (Pseudocode.committed s r (s.cur + r.len))) ∨
    ∃ e, Pseudocode.decodeOne s.params s.streamRead s.cur = .error e ∧ step s = .next (Pseudocode.stopped s e) := by
  rcases hf : s.fetchInstr with e | ⟨i, q⟩
  · refine .inr ⟨.decode e, pseudocode_decodeOne_of_error s.params hf, ?_⟩
    rw [step_fetch_error hst hlt.ne hf, raise_eq_stopped hlt]
  · rw [step_fetch_ok hst hlt.ne hf]
    rcases pseudocode_decodeOne_of_fetch hf with ⟨r, hd, hx⟩ | ⟨v, hd, hx⟩
    · exact .inl ⟨r, hd, by rw [hx, commit_eq_committed hst]⟩
    · exact .inr ⟨.unhandled v, hd, by rw [hx, raiseUnhandled_eq_stopped hlt]⟩

/-- Settles O40: a next state needs `Scanning`; at the end it is the clean end, and before it `DecodeOne`'s outcome. -/
theorem stepIsEnabledOnlyWhileScanning : Obligations.StepIsEnabledOnlyWhileScanning := by
  refine fun s => ⟨fun hst t h => hst (step_cases h).1, fun hst hc => ?_, fun hst hlt => ?_⟩
  · rw [step_end hst hc, endOfStream_eq_exhausted hc]; rfl
  · exact (step_before_end hst hlt).imp_left fun ⟨r, hd, hs⟩ => ⟨r, s.cur + r.len, hd, hs⟩

/-! ## Determinism -/

/-- Every meaning answers a next state. -/
theorem exec_total (i : Instr) (s : State) : ∃ t, exec i s = .next t := by
  rcases exec_cases i s with ⟨r, hx, -⟩ | ⟨-, hx⟩ | ⟨-, hx⟩ <;> exact ⟨_, hx⟩

/-- A scanning state has a next state, wherever its cursor is. -/
theorem step_total {s : State} (hst : s.st = .scanning) : ∃ t, step s = .next t := by
  by_cases hc : s.cur = s.L
  · exact ⟨_, step_end hst hc⟩
  · rcases hf : s.fetchInstr with e | ⟨i, q⟩
    · exact ⟨_, step_fetch_error hst hc hf⟩
    · rw [step_fetch_ok hst hc hf]
      exact exec_total i s

/-- Reset forgets all but the stream, its length and the parameters (R160, R161). -/
theorem applyReset_congr {s u : State} (hB : u.B = s.B) (hL : u.L = s.L) (hp : u.params = s.params) :
    u.applyReset = s.applyReset := by
  rw [State.applyReset, hB, hL, hp]; rfl

/-- Settles O51: the step is total while scanning, and the two runs start from one and the same state. -/
theorem runsFromResetAreDeterministic : Obligations.RunsFromResetAreDeterministic :=
  ⟨fun _ => step_total, fun _ _ k hB hL hp => congrArg (run k) (applyReset_congr hB hL hp)⟩

end Sys2Proof.Machine
end

section
/-! PROOFS. The three arithmetic laws (41_operands.md R87). -/

namespace Sys2Proof.Machine

/-- `sext_16` is the two's-complement value of a byte. -/
theorem sext16_eq_toInt (b : Byte) : sext16 b = b.toInt := by
  rw [sext16, BitVec.toInt_eq_toNat_cond]
  split <;> split <;> omega

/-- `s16` is the two's-complement value of a two-byte field. -/
theorem s16_eq_toInt (u : Word) : s16 u = u.toInt := by
  rw [s16, BitVec.toInt_eq_toNat_cond]
  split <;> split <;> omega

theorem byte_toInt_bounds (b : Byte) : -128 ≤ b.toInt ∧ b.toInt ≤ 127 := by
  have := b.isLt
  rw [← sext16_eq_toInt, sext16]
  split <;> omega

theorem word_toInt_bounds (u : Word) : -32768 ≤ u.toInt ∧ u.toInt ≤ 32767 := by
  have := u.isLt
  rw [← s16_eq_toInt, s16]
  split <;> omega

/-- The low byte has no bit where the shifted high byte has one, so the `or` of R7 is a sum. -/
theorem u16le_eq_add (lo hi : Byte) : u16le lo hi = lo.toNat + 256 * hi.toNat := by
  rw [u16le, Nat.or_comm, ← Nat.shiftLeft_add_eq_or_of_lt lo.isLt, Nat.shiftLeft_eq]
  omega

/-- The signed number of two bytes, the low one first. -/
theorem s16le_eq_toInt (lo hi : Byte) : Pseudocode.s16le lo hi = (hi ++ lo : BitVec 16).toInt := by
  rw [← s16_wordLe, s16_eq_toInt, wordLe_eq_append]

/-- Settles O19: each sign extension by the half of the range its argument lies in, and as the two's-complement value,
from which a value in one byte's range comes back. -/
theorem arithmeticLaws : Obligations.ArithmeticLaws := by
  refine ⟨fun b => ⟨fun h => ?_, fun h => ?_, sext16_eq_toInt b⟩,
    fun u => ⟨fun h => ?_, fun h => ?_, s16_eq_toInt u⟩, u16le_eq_add, fun v hlo hhi => ?_⟩
  · rw [sext16, if_pos (by omega)]
  · rw [sext16, if_neg (by omega)]; omega
  · rw [s16, if_pos (by omega)]
  · rw [s16, if_neg (by omega)]; omega
  · rw [sext16_eq_toInt]
    exact BitVec.toInt_ofInt_eq_self (by decide) (by omega) (by omega)

end Sys2Proof.Machine
end

section
/-! PROOFS. The text of a base term (41_operands.md R72, R81, R88). -/

namespace Sys2Proof.Machine

/-- The base terms in the order of their rm values (R72). -/
theorem baseText_baseOfRm : ∀ rm : BitVec 3, baseText (baseOfRm rm) =
    ["bx + si", "bx + di", "bp + si", "bp + di", "si", "di", "bp", "bx"].getD rm.toNat "" := by decide

/-- A Memory operand with a base opens with the bracket and the base term. -/
theorem memText_baseDisp (b : BaseExpr) (d : Int) :
    memText (.baseDisp b d) = "[" ++ baseText b ++ (dispSuffix d ++ "]") := by
  rw [memText, String.append_assoc]

/-- A displacement of 0 leaves no trace in the text (R81). -/
theorem memText_baseDisp_zero (b : BaseExpr) : memText (.baseDisp b 0) = "[" ++ baseText b ++ "]" := by
  simp [memText, dispSuffix]

/-- Settles O22: by the form the resolver answers; only the base and the displacement reach the text. -/
theorem baseTermIsIndependentOfTheDisplacement : Obligations.BaseTermIsIndependentOfTheDisplacement := by
  intro read mod rm p q f w hf hmod
  rw [← baseText_baseOfRm rm]
  intro base
  refine ⟨fun hrm => ?_, fun hrm hmod0 => ?_, fun hzero => ?_⟩
  · rcases readRmForm_eq_ok.mp hf with ⟨rfl, -⟩ | ⟨-, -, rfl, -⟩ | ⟨-, rfl, -⟩ | ⟨-, b, -, rfl, -⟩ | ⟨-, d, -, rfl⟩
    · exact absurd rfl hmod
    · exact ⟨"]", rfl⟩
    · exact absurd rfl hrm
    · exact ⟨_, memText_baseDisp _ _⟩
    · exact ⟨_, memText_baseDisp _ _⟩
  · subst hmod0
    obtain ⟨rfl, -⟩ : f = .baseOnly (baseOfRm rm) ∧ q = p := by
      simpa [show ¬rm = 6#3 from hrm] using readRmForm_eq_ok.mp hf
    exact ⟨rfl, rfl⟩
  · have hop : rmOperand f w = .memory (.baseDisp (baseOfRm rm) 0) := by rcases hzero with rfl | rfl <;> rfl
    rw [hop]
    exact ⟨memText_baseDisp_zero _, rfl⟩

end Sys2Proof.Machine
end

section
/-! PROOFS. The operands and the cursor of a step, from the bytes of the stream (41_operands.md R74 to R79). -/

namespace Sys2Proof.Machine

/-! ## What a step that appends something did -/

theorem commit_injective {r r' : Decoded} {s : State} (h : commit r s = commit r' s) : r = r' := by
  simpa using congrArg State.recs h

/-- A step either commits the record that `DecodeOne` gives at the cursor (R62), which some meaning commits, or leaves
the records and the lines alone (R63). -/
theorem step_commits_or_keeps {s t : State} (h : step s = .next t) :
    (∃ i r, exec i s = .next (commit r s) ∧ t = commit r s ∧
      Pseudocode.decodeOne s.params s.streamRead s.cur = .ok (r, s.cur + r.len)) ∨
    (t.recs = s.recs ∧ t.out = s.out) := by
  rcases step_cases h with ⟨-, ⟨-, rfl⟩ | ⟨-, i, q, hf, hx⟩ | ⟨-, e, -, rfl⟩⟩
  · exact .inr ⟨rfl, rfl⟩
  · rcases pseudocode_decodeOne_of_fetch hf with ⟨r, hd, hc⟩ | ⟨v, -, hu⟩
    · exact .inl ⟨i, r, hc, by simpa [hc, eq_comm] using hx, hd⟩
    · obtain rfl : raiseUnhandled v s = t := by simpa [hu] using hx
      exact .inr ⟨rfl, rfl⟩
  · rcases raise_cases e (beginDecode s) with ⟨b, -, hr⟩ | ⟨n, -, hr⟩ <;> rw [hr] <;> exact .inr ⟨rfl, rfl⟩

/-- A step that appends a record committed it. -/
theorem step_appends_record {s t : State} {r : Decoded} (h : step s = .next t) (hr : t.recs = s.recs ++ [r]) :
    ∃ i, exec i s = .next (commit r s) ∧ t = commit r s ∧
      Pseudocode.decodeOne s.params s.streamRead s.cur = .ok (r, s.cur + r.len) := by
  rcases step_commits_or_keeps h with ⟨i, r', hx, rfl, hd⟩ | ⟨hkeep, -⟩
  · obtain rfl : r' = r := by simpa using hr
    exact ⟨i, hx, rfl, hd⟩
  · simp [hkeep] at hr

/-- A step that appends a line committed a record and rendered it. -/
theorem step_appends_line {s t : State} {line : String} (h : step s = .next t) (ho : t.out = s.out ++ [line]) :
    ∃ i r, exec i s = .next (commit r s) ∧ t = commit r s ∧ line = render r := by
  rcases step_commits_or_keeps h with ⟨i, r, hx, rfl, -⟩ | ⟨-, hkeep⟩
  · exact ⟨i, r, hx, rfl, by simpa [eq_comm] using ho⟩
  · simp [hkeep] at ho

/-! ## A step from what `DecodeOne` gives -/

theorem step_of_decodeOne_ok {s : State} {r : Decoded} {q : Nat} (hst : s.st = .scanning) (hlt : s.cur < s.L)
    (h : Pseudocode.decodeOne s.params s.streamRead s.cur = .ok (r, q)) :
    step s = .next (Pseudocode.committed s r q) := by
  rcases step_before_end hst hlt with ⟨r', hd, hs⟩ | ⟨e, hd, -⟩
  · obtain ⟨rfl, rfl⟩ : r' = r ∧ s.cur + r'.len = q := by simpa [h, eq_comm] using hd
    exact hs
  · simp [h] at hd

theorem step_of_decodeOne_error {s : State} {e : Pseudocode.Raised} (hst : s.st = .scanning) (hlt : s.cur < s.L)
    (h : Pseudocode.decodeOne s.params s.streamRead s.cur = .error e) :
    step s = .next (Pseudocode.stopped s e) := by
  rcases step_before_end hst hlt with ⟨r, hd, -⟩ | ⟨e', hd, hs⟩
  · simp [h] at hd
  · obtain rfl : e' = e := by simpa [h, eq_comm] using hd
    exact hs

/-! ## The lead byte's class, from its pattern (R41) -/

theorem classify_of_regMemToFromReg_pattern : ∀ op : Byte, op &&& 0xFC = 0x88 →
    classify op = some .RegMemToFromReg := by decide
theorem classify_of_immToRegMem_pattern : ∀ op : Byte, op &&& 0xFE = 0xC6 →
    classify op = some .ImmToRegMem := by decide
theorem classify_of_immToReg_pattern : ∀ op : Byte, op &&& 0xF0 = 0xB0 → classify op = some .ImmToReg := by decide
theorem not_regMemToFromReg_pattern : ∀ op : Byte, op &&& 0xFE = 0xC6 → op &&& 0xFC ≠ 0x88 := by decide

/-! ## `DecodeOne` past the bytes already read -/

section
variable {params : Config.Params} {read : ByteReader} {start : Nat} {op m : Byte}

/-- A RegMemToFromReg is the resolver's operand beside the reg operand (R90). -/
theorem decodeOne_regMemToFromReg (hop : read start = .ok op) (hc : op &&& 0xFC = 0x88)
    (hm : read (start + 1) = .ok m) :
    Pseudocode.decodeOne params read start =
      ((Pseudocode.resolve read (Pseudocode.bits m 7 6) (Pseudocode.bits m 2 0) (Pseudocode.bit op 0)
          (start + 2)).map fun oq =>
        let regOp := Pseudocode.registerOf (Pseudocode.bits m 5 3) (Pseudocode.bit op 0)
        ({ leadAt := start, len := oq.2 - start, variant := .RegMemToFromReg
           fields := Pseudocode.modRmFields (some (Pseudocode.bit op 1)) (some (Pseudocode.bit op 0)) m
           dst := if Pseudocode.bit op 1 then regOp else oq.1
           src := if Pseudocode.bit op 1 then oq.1 else regOp }, oq.2)).mapError .decode := by
  simp only [Pseudocode.decodeOne, hop, classify_of_regMemToFromReg_pattern op hc, Pseudocode.decodeRMR, hm, bind,
    Except.bind]
  cases Pseudocode.resolve read (Pseudocode.bits m 7 6) (Pseudocode.bits m 2 0) (Pseudocode.bit op 0) (start + 2) <;>
    rfl

/-- An ImmToRegMem is the resolver's operand and then the immediate, which is read where the resolver stopped (R100,
R103). -/
theorem decodeOne_immToRegMem (hop : read start = .ok op) (hc : op &&& 0xFE = 0xC6) (hm : read (start + 1) = .ok m) :
    Pseudocode.decodeOne params read start =
      ((Pseudocode.resolve read (Pseudocode.bits m 7 6) (Pseudocode.bits m 2 0) (Pseudocode.bit op 0)
          (start + 2)).bind fun oq =>
        (Pseudocode.readImmediate read (Pseudocode.bit op 0) oq.2).map fun iq =>
          ({ leadAt := start, len := iq.2 - start, variant := .ImmToRegMem
             fields := Pseudocode.modRmFields none (some (Pseudocode.bit op 0)) m
             dst := oq.1, src := iq.1 }, iq.2)).mapError .decode := by
  simp only [Pseudocode.decodeOne, hop, classify_of_immToRegMem_pattern op hc, Pseudocode.decodeIRM, hm, bind,
    Except.bind]
  rcases Pseudocode.resolve read (Pseudocode.bits m 7 6) (Pseudocode.bits m 2 0) (Pseudocode.bit op 0) (start + 2) with
    e | oq
  · rfl
  · cases Pseudocode.readImmediate read (Pseudocode.bit op 0) oq.2 <;> rfl

/-- An ImmToReg is the immediate alone (R110). -/
theorem decodeOne_immToReg (hop : read start = .ok op) (hc : op &&& 0xF0 = 0xB0) :
    Pseudocode.decodeOne params read start =
      ((Pseudocode.readImmediate read (Pseudocode.bit op 3) (start + 1)).map fun iq =>
        ({ leadAt := start, len := iq.2 - start, variant := .ImmToReg
           fields := { w := some (Pseudocode.bit op 3), reg := some (BitVec.ofNat 3 (Pseudocode.bits op 2 0)) }
           dst := Pseudocode.registerOf (Pseudocode.bits op 2 0) (Pseudocode.bit op 3), src := iq.1 },
          iq.2)).mapError .decode := by
  simp only [Pseudocode.decodeOne, hop, classify_of_immToReg_pattern op hc, Pseudocode.decodeIR, bind, Except.bind]
  cases Pseudocode.readImmediate read (Pseudocode.bit op 3) (start + 1) <;> rfl

/-- An immediate that is read has the length of its width, one byte for w=0 and two for w=1 (R79). -/
theorem readImmediate_offset {w : Bool} {p q : Nat} {v : Operand}
    (h : Pseudocode.readImmediate read w p = .ok (v, q)) : q = p + if w then 2 else 1 := by
  rw [readImmediate_eq] at h
  rcases hd : readImmData read w p with e | ⟨imm, q'⟩
  · simp [hd, Except.map] at h
  · obtain ⟨-, rfl⟩ : immOperand imm = v ∧ q' = q := by simpa [hd, Except.map] using h
    obtain ⟨rfl, hq, -⟩ := readImmData_spec hd
    exact hq

/-- The r/m operand of a record that `DecodeOne` gives is the resolver's, and the data bytes that ImmToRegMem has follow
the resolver's own. -/
theorem resolve_of_decodeOne {r : Decoded} {q : Nat} (hop : read start = .ok op)
    (hc : op &&& 0xFC = 0x88 ∨ op &&& 0xFE = 0xC6) (hm : read (start + 1) = .ok m)
    (h : Pseudocode.decodeOne params read start = .ok (r, q)) :
    ∃ q', Pseudocode.resolve read (Pseudocode.bits m 7 6) (Pseudocode.bits m 2 0) (Pseudocode.bit op 0) (start + 2) =
        .ok (r.rmOperand, q') ∧
      q = q' + if op &&& 0xFC = 0x88 then 0 else if Pseudocode.bit op 0 then 2 else 1 := by
  rcases hr : Pseudocode.resolve read (Pseudocode.bits m 7 6) (Pseudocode.bits m 2 0) (Pseudocode.bit op 0)
      (start + 2) with e | ⟨o, q'⟩
  · rcases hc with hc | hc
    · simp [decodeOne_regMemToFromReg hop hc hm, hr, Except.map, Except.mapError] at h
    · simp [decodeOne_immToRegMem hop hc hm, hr, Except.bind, Except.mapError] at h
  · refine ⟨q', ?_⟩
    rcases hc with hc | hc
    · obtain ⟨rfl, rfl⟩ : _ = r ∧ q' = q := by
        simpa [decodeOne_regMemToFromReg hop hc hm, hr, Except.map, Except.mapError] using h
      rw [if_pos hc]
      refine ⟨?_, rfl⟩
      cases Pseudocode.bit op 1 <;> rfl
    · rcases hi : Pseudocode.readImmediate read (Pseudocode.bit op 0) q' with e | ⟨v, q''⟩
      · simp [decodeOne_immToRegMem hop hc hm, hr, hi, Except.bind, Except.map, Except.mapError] at h
      · obtain ⟨rfl, rfl⟩ : _ = r ∧ q'' = q := by
          simpa [decodeOne_immToRegMem hop hc hm, hr, hi, Except.bind, Except.map, Except.mapError] using h
        rw [if_neg (not_regMemToFromReg_pattern op hc), ← readImmediate_offset hi]
        exact ⟨rfl, rfl⟩

/-! ## The resolver, by mod (R74, R75, R77, R78) -/

variable {mod rm p : Nat} {w : Bool}

theorem resolve_mod3 (hmod : mod = 3) : Pseudocode.resolve read mod rm w p =
    .ok (.register (regName (BitVec.ofNat 3 rm) w), p) := by subst hmod; rfl

theorem resolve_mod0 (hmod : mod = 0) (hrm : rm ≠ 6) : Pseudocode.resolve read mod rm w p =
    .ok (.memory (.baseOnly (Pseudocode.base rm)), p) := by subst hmod; exact if_pos hrm

theorem resolve_mod1 {b : Byte} (hmod : mod = 1) (h : read p = .ok b) : Pseudocode.resolve read mod rm w p =
    .ok (.memory (.baseDisp (Pseudocode.base rm) b.toInt), p + 1) := by
  subst hmod
  simp [Pseudocode.resolve, h, sext16_eq_toInt, bind, Except.bind, pure, Except.pure]

theorem resolve_mod2 {lo hi : Byte} (hmod : mod = 2) (h0 : read p = .ok lo) (h1 : read (p + 1) = .ok hi) :
    Pseudocode.resolve read mod rm w p =
      .ok (.memory (.baseDisp (Pseudocode.base rm) (hi ++ lo : BitVec 16).toInt), p + 2) := by
  subst hmod
  simp [Pseudocode.resolve, h0, h1, s16le_eq_toInt, bind, Except.bind, pure, Except.pure]

end

/-- Settles O14: the record's r/m operand is what the resolver answers, and the resolver's answer is fixed by mod. -/
theorem resolverOperandByMod : Obligations.ResolverOperandByMod := by
  intro s t r op m hop hc hm hstep hr w rm data
  obtain ⟨i, -, rfl, hd⟩ := step_appends_record hstep hr
  obtain ⟨q, hres, hq⟩ := resolve_of_decodeOne hop hc hm hd
  have answer : ∀ {o : Operand} {n : Nat},
      Pseudocode.resolve s.streamRead (Pseudocode.bits m 7 6) rm w (s.cur + 2) = .ok (o, n) →
      r.rmOperand = o ∧ (commit r s).cur = n + data := by
    intro o n h
    obtain ⟨ho, rfl⟩ : r.rmOperand = o ∧ q = n := by simpa using hres.symm.trans h
    exact ⟨ho, hq⟩
  refine ⟨fun hmod => answer (resolve_mod3 hmod), fun hmod hrm => answer (resolve_mod0 hmod hrm),
    fun hmod b hb => ?_, fun hmod lo hi hlo hhi => ?_⟩
  · obtain ⟨ho, hcur⟩ := answer (resolve_mod1 hmod hb)
    exact ⟨ho, (byte_toInt_bounds b).1, (byte_toInt_bounds b).2, hcur⟩
  · obtain ⟨ho, hcur⟩ := answer (resolve_mod2 hmod hlo hhi)
    exact ⟨ho, (word_toInt_bounds _).1, (word_toInt_bounds _).2, hcur⟩

/-! ## The immediate reader (R79) -/

section
variable {read : ByteReader} {p : Nat}

theorem readImmediate_byte {b : Byte} (h : read p = .ok b) :
    Pseudocode.readImmediate read false p = .ok (.immediate b.toInt .byte, p + 1) := by
  simp [Pseudocode.readImmediate, h, sext16_eq_toInt, bind, Except.bind, pure, Except.pure]

theorem readImmediate_word {lo hi : Byte} (h0 : read p = .ok lo) (h1 : read (p + 1) = .ok hi) :
    Pseudocode.readImmediate read true p = .ok (.immediate (hi ++ lo : BitVec 16).toInt .word, p + 2) := by
  simp [Pseudocode.readImmediate, h0, h1, s16le_eq_toInt, bind, Except.bind, pure, Except.pure]

/-- Without its first byte the immediate is not read, whatever its width. -/
theorem readImmediate_error_first {e : DecodeError} (w : Bool) (h : read p = .error e) :
    Pseudocode.readImmediate read w p = .error e := by
  cases w <;> simp [Pseudocode.readImmediate, h, bind, Except.bind]

theorem readImmediate_error_second {lo : Byte} {e : DecodeError} (h0 : read p = .ok lo) (h1 : read (p + 1) = .error e) :
    Pseudocode.readImmediate read true p = .error e := by
  simp [Pseudocode.readImmediate, h0, h1, bind, Except.bind]

end

/-- The resolver answers when the stream holds its displacement bytes, and stops right after them (R49). -/
theorem resolve_total {s : State} {m : Byte} {w : Bool} {p : Nat}
    (hp : p + Pseudocode.dispLen (Pseudocode.bits m 7 6) (Pseudocode.bits m 2 0) ≤ s.L) :
    ∃ o, Pseudocode.resolve s.streamRead (Pseudocode.bits m 7 6) (Pseudocode.bits m 2 0) w p =
      .ok (o, p + Pseudocode.dispLen (Pseudocode.bits m 7 6) (Pseudocode.bits m 2 0)) := by
  rw [← modField_toNat, ← rmField_toNat, dispLen_toNat] at hp ⊢
  rw [resolve_eq]
  rcases hf : readRmForm s.streamRead (modField m) (rmField m) p with e | ⟨f, q⟩
  · exfalso
    have word_error : readWordLe s.streamRead p = .error e → s.L < p + 2 := fun h => by
      rcases readWordLe_eq_error.mp h with h | ⟨-, -, h⟩ <;> have := (streamRead_eq_error.mp h).1 <;> omega
    rcases readRmForm_eq_error.mp hf with ⟨hmod, hrm, hw⟩ | ⟨hmod, hb⟩ | ⟨hmod, hw⟩
    · have := word_error hw; simp [hmod, hrm, dispLen] at hp; omega
    · have := (streamRead_eq_error.mp hb).1; simp [hmod, dispLen] at hp; omega
    · have := word_error hw; simp [hmod, dispLen] at hp; omega
  · obtain ⟨-, -, -, rfl, -⟩ := readRmForm_spec hf
    exact ⟨_, rfl⟩

/-- Where an instruction's first data byte stands, and the width of its immediate: past the ModRM byte and the
displacement of an ImmToRegMem (R103), right past the lead byte of an ImmToReg (R110). -/
def ImmediateAt (s : State) (op : Byte) (p : Nat) (w : Bool) : Prop :=
  (op &&& 0xFE = 0xC6 ∧ w = Pseudocode.bit op 0 ∧ p ≤ s.L ∧ ∃ m, s.streamRead (s.cur + 1) = .ok m ∧
    p = s.cur + 2 + Pseudocode.dispLen (Pseudocode.bits m 7 6) (Pseudocode.bits m 2 0)) ∨
  (op &&& 0xF0 = 0xB0 ∧ w = Pseudocode.bit op 3 ∧ p = s.cur + 1)

section
variable {s : State} {op : Byte} {p : Nat} {w : Bool}

/-- At an instruction's first data byte, `DecodeOne` is the immediate reader, and its record's source is what it reads. -/
theorem decodeOne_immediateAt (hop : s.streamRead s.cur = .ok op) (hat : ImmediateAt s op p w) :
    ∃ record : Operand × Nat → Decoded, (∀ iq, (record iq).src = iq.1) ∧
      Pseudocode.decodeOne s.params s.streamRead s.cur =
        ((Pseudocode.readImmediate s.streamRead w p).map fun iq => (record iq, iq.2)).mapError .decode := by
  rcases hat with ⟨hc, rfl, hp, m, hm, rfl⟩ | ⟨hc, rfl, rfl⟩
  · obtain ⟨o, hr⟩ := resolve_total (w := Pseudocode.bit op 0) hp
    exact ⟨_, fun _ => rfl, by rw [decodeOne_immToRegMem hop hc hm, hr]; rfl⟩
  · exact ⟨_, fun _ => rfl, decodeOne_immToReg hop hc⟩

/-- The step commits the immediate that is read, and the cursor stands after it. -/
theorem step_of_readImmediate_ok {v : Operand} {q : Nat} (hst : s.st = .scanning)
    (hop : s.streamRead s.cur = .ok op) (hat : ImmediateAt s op p w)
    (h : Pseudocode.readImmediate s.streamRead w p = .ok (v, q)) :
    ∃ t r, step s = .next t ∧ t.recs = s.recs ++ [r] ∧ r.src = v ∧ t.cur = q := by
  obtain ⟨record, hsrc, hd⟩ := decodeOne_immediateAt hop hat
  rw [h] at hd
  exact ⟨_, _, step_of_decodeOne_ok hst (streamRead_eq_ok.mp hop).1 hd, rfl, hsrc _, rfl⟩

/-- The step raises what the immediate reader raises. -/
theorem step_of_readImmediate_error {e : DecodeError} (hst : s.st = .scanning)
    (hop : s.streamRead s.cur = .ok op) (hat : ImmediateAt s op p w)
    (h : Pseudocode.readImmediate s.streamRead w p = .error e) :
    step s = .next (Pseudocode.stopped s (.decode e)) := by
  obtain ⟨record, -, hd⟩ := decodeOne_immediateAt hop hat
  rw [h] at hd
  exact step_of_decodeOne_error hst (streamRead_eq_ok.mp hop).1 hd

end

/-- Settles O16: the step does at the first data byte what the immediate reader does there. -/
theorem immediateReaderValueAndTag : Obligations.ImmediateReaderValueAndTag := by
  intro s op p w hst hop hat
  have raises : s.L ≤ p → step s = .next (Pseudocode.stopped s (.decode (.truncated p))) := fun hp =>
    step_of_readImmediate_error hst hop hat (readImmediate_error_first w (streamRead_ge hp))
  refine ⟨?_, ?_⟩ <;> rintro rfl
  · refine ⟨fun b hb => ?_, raises⟩
    obtain ⟨t, r, hs, hr, hsrc, hcur⟩ := step_of_readImmediate_ok hst hop hat (readImmediate_byte hb)
    exact ⟨t, r, hs, hr, hsrc, (byte_toInt_bounds b).1, (byte_toInt_bounds b).2, hcur⟩
  · refine ⟨fun lo hi hlo hhi => ?_, raises, fun hend => ?_⟩
    · obtain ⟨t, r, hs, hr, hsrc, hcur⟩ := step_of_readImmediate_ok hst hop hat (readImmediate_word hlo hhi)
      exact ⟨t, r, hs, hr, hsrc, (word_toInt_bounds _).1, (word_toInt_bounds _).2, hcur⟩
    · exact step_of_readImmediate_error hst hop hat
        (readImmediate_error_second (streamRead_lt (by omega)) (streamRead_ge hend.ge))

end Sys2Proof.Machine
end

section
/-! PROOFS. The lines (41_operands.md R83 to R86, 43_mov_imm_rm.md R102, 44_mov_imm_reg.md R111): which operand of a
committed record is an immediate and how it is tagged, and the characters of a line. -/

namespace Sys2Proof.Machine

/-! ## Immediates of a committed record -/

/-- A register or memory operand (R18). -/
def Operand.IsPlace (o : Operand) : Prop := ∀ v tag, o ≠ .immediate v tag

theorem register_isPlace (n : RegName) : (Operand.register n).IsPlace := fun _ _ h => by cases h
theorem memory_isPlace (m : MemExpr) : (Operand.memory m).IsPlace := fun _ _ h => by cases h

theorem rmOperand_isPlace (rm : RmForm) (w : Bool) : (rmOperand rm w).IsPlace := by
  cases rm with
  | register i => exact register_isPlace _
  | _ => exact memory_isPlace _

/-- The width tag follows the w bit that the data was read with (R79). -/
theorem immOperand_eq (imm : ImmData) : ∃ v, immOperand imm = .immediate v (if imm.wBit then .word else .byte) := by
  cases imm <;> exact ⟨_, rfl⟩

/-- The two forms a committed record has: an immediate as the source of ImmToRegMem and ImmToReg, and none elsewhere. -/
theorem commit_operands {i : Instr} {s : State} {r : Decoded} (h : exec i s = .next (commit r s)) :
    ((r.variant = .ImmToRegMem ∨ r.variant = .ImmToReg) ∧ r.dst.IsPlace ∧
      ∃ v w, r.fields.w = some w ∧ r.src = .immediate v (if w then .word else .byte)) ∨
    (r.variant ≠ .ImmToRegMem ∧ r.variant ≠ .ImmToReg ∧ r.dst.IsPlace ∧ r.src.IsPlace) := by
  have record : ∀ {r'}, exec i s = .next (commit r' s) → r' = r := fun h' =>
    commit_injective (by simpa [h, eq_comm] using h')
  cases i with
  | regMemToFromReg d w reg rm =>
    rw [← record rfl]
    refine .inr ⟨nofun, nofun, ?_⟩
    cases d
    · exact ⟨rmOperand_isPlace rm w, register_isPlace _⟩
    · exact ⟨register_isPlace _, rmOperand_isPlace rm w⟩
  | immToRegMem reg rm imm =>
    rw [← record rfl]
    obtain ⟨v, hv⟩ := immOperand_eq imm
    exact .inl ⟨.inl rfl, rmOperand_isPlace rm _, v, imm.wBit, rfl, hv⟩
  | immToReg reg imm =>
    rw [← record rfl]
    obtain ⟨v, hv⟩ := immOperand_eq imm
    exact .inl ⟨.inr rfl, register_isPlace _, v, imm.wBit, rfl, hv⟩
  | memToAcc w addr => rw [← record rfl]; exact .inr ⟨nofun, nofun, register_isPlace _, memory_isPlace _⟩
  | accToMem w addr => rw [← record rfl]; exact .inr ⟨nofun, nofun, memory_isPlace _, register_isPlace _⟩
  | regMemToSeg => exact absurd (congrArg (·.st) (Host.Outcome.next.inj h)) nofun
  | segToRegMem => exact absurd (congrArg (·.st) (Host.Outcome.next.inj h)) nofun

/-! ## The text of an operand, tagged or not (R83, R86) -/

/-- Whether immediates are tagged changes no other operand's text. -/
theorem operandText_isPlace {o : Operand} (ho : o.IsPlace) (tagged : Bool) :
    operandText tagged o = operandText false o := by
  cases o with
  | register n => rfl
  | memory m => rfl
  | immediate v tag => exact absurd rfl (ho v tag)

theorem operandText_tagged (v : Int) (w : Bool) :
    operandText true (.immediate v (if w then .word else .byte)) = (if w then "word" else "byte") ++ " " ++ dec v := by
  cases w <;> rfl

theorem tagsImmediate_eq_decide (v : OpcodeVariant) : tagsImmediate v = decide (v = .ImmToRegMem) := by
  cases v <;> rfl

/-- An ImmToRegMem with a register destination, from its bytes: the register's name, and the tagged immediate (R102). -/
theorem step_immToRegMem_register {s : State} {op m : Byte} {v : Operand} {q : Nat} (hst : s.st = .scanning)
    (hop : s.streamRead s.cur = .ok op) (hc : op &&& 0xFE = 0xC6) (hm : s.streamRead (s.cur + 1) = .ok m)
    (hmod : Pseudocode.bits m 7 6 = 3)
    (himm : Pseudocode.readImmediate s.streamRead (Pseudocode.bit op 0) (s.cur + 2) = .ok (v, q)) :
    ∃ t, step s = .next t ∧ t.out = s.out ++
      ["mov " ++ regText (regName (BitVec.ofNat 3 (Pseudocode.bits m 2 0)) (Pseudocode.bit op 0)) ++ ", " ++
        operandText true v] := by
  have hd := decodeOne_immToRegMem (params := s.params) hop hc hm
  rw [resolve_mod3 hmod] at hd
  simp only [Except.bind, himm] at hd
  exact ⟨_, step_of_decodeOne_ok hst (streamRead_eq_ok.mp hop).1 hd, rfl⟩

/-- Settles O23: the immediate of a committed record and its tag are the variant's, and its text is the tag's word and
the decimal value; R102's two lines come from the bytes. -/
theorem widthTagsAreFixedPerVariant : Obligations.WidthTagsAreFixedPerVariant := by
  refine ⟨fun s t r hstep hr => ?_, fun v => ⟨fun _ => rfl, rfl, rfl⟩, by decide, fun s hst => ⟨?_, ?_⟩⟩
  · obtain ⟨i, hx, rfl, -⟩ := step_appends_record hstep hr
    rcases commit_operands hx with ⟨hvar, hdst, v, w, hw, hsrc⟩ | ⟨hne, hne', hdst, hsrc⟩
    · refine ⟨fun hv => ⟨v, w, hw, hsrc, ?_⟩, fun hv => ⟨v, w, hw, hsrc, ?_⟩, fun hne hne' => ?_⟩
      · rw [commit_out, render, hv, hsrc, tagsImmediate, operandText_isPlace hdst, operandText_tagged]
        simp only [String.append_assoc]
      · rw [commit_out, render, hv, hsrc]; rfl
      · exact (hvar.elim hne hne').elim
    · exact ⟨fun hv => absurd hv hne, fun hv => absurd hv hne', fun _ _ v tag => ⟨hdst v tag, hsrc v tag⟩⟩
  · intro h0 h1 h2 h3
    obtain ⟨t, hs, ho⟩ := step_immToRegMem_register hst h0 (by decide) h1 (by decide) (readImmediate_word h2 h3)
    exact ⟨t, hs, ho.trans (congrArg (fun line => s.out ++ [line]) (by decide))⟩
  · intro h0 h1 h2
    obtain ⟨t, hs, ho⟩ := step_immToRegMem_register hst h0 (by decide) h1 (by decide) (readImmediate_byte h2)
    exact ⟨t, hs, ho.trans (congrArg (fun line => s.out ++ [line]) (by decide))⟩

/-! ## The characters of a line (R85) -/

/-- A text with no line terminator. -/
def OneLine (x : String) : Prop := ∀ c ∈ x.toList, c ≠ '\n' ∧ c ≠ '\r'

/-- A text with no line terminator that ends with a character other than a space. -/
structure CleanText (x : String) : Prop where
  oneLine : OneLine x
  last : ∃ c, x.toList.getLast? = some c ∧ c ≠ ' '

theorem OneLine.append {x y : String} (hx : OneLine x) (hy : OneLine y) : OneLine (x ++ y) := by
  rw [OneLine, String.toList_append, List.forall_mem_append]
  exact ⟨hx, hy⟩

theorem OneLine.append_clean {x y : String} (hx : OneLine x) (hy : CleanText y) : CleanText (x ++ y) := by
  obtain ⟨c, hlast, hc⟩ := hy.last
  exact ⟨hx.append hy.oneLine, c, by simp [List.getLast?_append, hlast], hc⟩

theorem ne_of_isDigit {c d : Char} (hc : c.isDigit = true) (hd : d.isDigit = false) : c ≠ d := by
  rintro rfl
  simp [hc] at hd

theorem decNat_clean (n : Nat) : CleanText (decNat n) := by
  obtain ⟨⟨hne, hdigit, -⟩, -⟩ := decDigits_spec (Nat.lt_succ_self n)
  rw [← decNat_toList] at hne hdigit
  refine ⟨fun c hc => ⟨ne_of_isDigit (hdigit c hc) (by decide), ne_of_isDigit (hdigit c hc) (by decide)⟩,
    _, List.getLast?_eq_some_getLast hne, ne_of_isDigit (hdigit _ (List.getLast_mem hne)) (by decide)⟩

theorem dec_clean (n : Int) : CleanText (dec n) := by
  unfold dec
  split
  · exact OneLine.append_clean (by simp [OneLine]) (decNat_clean _)
  · exact decNat_clean _

theorem regText_clean (n : RegName) : CleanText (regText n) := by
  cases n <;> exact ⟨by simp [OneLine, regText], by simp [regText]⟩

theorem baseText_oneLine (b : BaseExpr) : OneLine (baseText b) := by
  cases b <;> simp [OneLine, baseText]

theorem dispSuffix_oneLine (d : Int) : OneLine (dispSuffix d) := by
  unfold dispSuffix
  split
  · simp [OneLine]
  · split <;> exact OneLine.append (by simp [OneLine]) (dec_clean _).oneLine

theorem bracketed_clean {x : String} (hx : OneLine x) : CleanText ("[" ++ x ++ "]") :=
  OneLine.append_clean (.append (by simp [OneLine]) hx) ⟨by simp [OneLine], by simp⟩

theorem memText_clean (m : MemExpr) : CleanText (memText m) := by
  cases m with
  | baseOnly b => exact bracketed_clean (baseText_oneLine b)
  | direct a => exact bracketed_clean (dec_clean a).oneLine
  | baseDisp b d =>
    rw [memText, @String.append_assoc "["]
    exact bracketed_clean (.append (baseText_oneLine b) (dispSuffix_oneLine d))

theorem operandText_clean (tagged : Bool) (o : Operand) : CleanText (operandText tagged o) := by
  cases o with
  | register n => exact regText_clean n
  | memory m => exact memText_clean m
  | immediate v tag =>
    cases tagged
    · exact dec_clean v
    · refine OneLine.append_clean (.append ?_ (by simp [OneLine])) (dec_clean v)
      cases tag <;> simp [OneLine, tagWord]

theorem render_clean (r : Decoded) : CleanText (render r) :=
  OneLine.append_clean (.append (.append (by simp [OneLine]) (operandText_clean _ _).oneLine) (by simp [OneLine]))
    (operandText_clean _ _)

/-- Settles O24: the line is the rendering of the record that the same step committed. -/
theorem linesHaveTheCanonicalForm : Obligations.LinesHaveTheCanonicalForm := by
  intro s t line hstep hout
  obtain ⟨i, r, -, rfl, rfl⟩ := step_appends_line hstep hout
  obtain ⟨honeLine, c, hlast, hc⟩ := render_clean r
  refine ⟨r, rfl, ?_, ?_, ?_, fun h => (honeLine _ h).1 rfl, fun h => (honeLine _ h).2 rfl⟩
  · rw [← tagsImmediate_eq_decide]; rfl
  · simp [render]
  · intro d hd
    obtain rfl : c = d := by simpa [hlast] using hd
    exact hc

end Sys2Proof.Machine
end

section
/-! PROOFS. MOV register/memory to/from register (42_mov_rm_reg.md): what its step does from the bytes of the stream
(R90), the width of its operands (R91), and where it is truncated (R93). -/

namespace Sys2Proof.Machine

/-! ## The record -/

/-- The record of a RegMemToFromReg whose r/m operand is `rmOp` and which ends at `q` (R90). -/
def regMemToFromRegRecord (start : Nat) (op m : Byte) (rmOp : Operand) (q : Nat) : Decoded :=
  let regOp := Pseudocode.registerOf (Pseudocode.bits m 5 3) (Pseudocode.bit op 0)
  { leadAt := start, len := q - start, variant := .RegMemToFromReg
    fields := Pseudocode.modRmFields (some (Pseudocode.bit op 1)) (some (Pseudocode.bit op 0)) m
    dst := if Pseudocode.bit op 1 then regOp else rmOp
    src := if Pseudocode.bit op 1 then rmOp else regOp }

/-- The d bit chooses which of the two operands is the destination (R90). -/
theorem regMemToFromRegRecord_operands (start : Nat) (op m : Byte) (rmOp : Operand) (q : Nat) :
    let r := regMemToFromRegRecord start op m rmOp q
    let regOp := Pseudocode.registerOf (Pseudocode.bits m 5 3) (Pseudocode.bit op 0)
    (r.dst = regOp ∧ r.src = rmOp) ∨ (r.dst = rmOp ∧ r.src = regOp) := by
  rw [regMemToFromRegRecord]
  cases Pseudocode.bit op 1
  · exact .inr ⟨rfl, rfl⟩
  · exact .inl ⟨rfl, rfl⟩

section
variable {params : Config.Params} {read : ByteReader} {start : Nat} {op m : Byte}

/-- Without its ModRM byte a RegMemToFromReg raises what the read of that byte raises. -/
theorem decodeOne_regMemToFromReg_noModRm {e : DecodeError} (hop : read start = .ok op) (hc : op &&& 0xFC = 0x88)
    (hm : read (start + 1) = .error e) : Pseudocode.decodeOne params read start = .error (.decode e) := by
  simp [Pseudocode.decodeOne, hop, classify_of_regMemToFromReg_pattern op hc, Pseudocode.decodeRMR, hm, bind,
    Except.bind, Except.mapError]

/-- A record that `DecodeOne` gives for a lead byte of the class is made of a ModRM byte and the resolver's operand. -/
theorem record_of_decodeOne_regMemToFromReg {r : Decoded} {q : Nat} (hop : read start = .ok op)
    (hc : op &&& 0xFC = 0x88) (h : Pseudocode.decodeOne params read start = .ok (r, q)) :
    ∃ m rmOp, Pseudocode.resolve read (Pseudocode.bits m 7 6) (Pseudocode.bits m 2 0) (Pseudocode.bit op 0)
      (start + 2) = .ok (rmOp, q) ∧ r = regMemToFromRegRecord start op m rmOp q := by
  rcases hm : read (start + 1) with e | m
  · simp [decodeOne_regMemToFromReg_noModRm hop hc hm] at h
  · rw [decodeOne_regMemToFromReg hop hc hm] at h
    rcases hr : Pseudocode.resolve read (Pseudocode.bits m 7 6) (Pseudocode.bits m 2 0) (Pseudocode.bit op 0)
        (start + 2) with e | ⟨rmOp, q'⟩
    · simp [hr, Except.map, Except.mapError] at h
    · obtain ⟨rfl, rfl⟩ : _ = r ∧ q' = q := by simpa [hr, Except.map, Except.mapError] using h
      exact ⟨m, rmOp, hr, rfl⟩

/-! ## The resolver's answers and errors -/

variable {w : Bool} {p : Nat}

/-- An operand that the resolver answers stands for an r/m form that was read (R73). -/
theorem rmForm_of_resolve {o : Operand} {q : Nat}
    (h : Pseudocode.resolve read (Pseudocode.bits m 7 6) (Pseudocode.bits m 2 0) w p = .ok (o, q)) :
    ∃ f, readRmForm read (modField m) (rmField m) p = .ok (f, q) ∧ o = rmOperand f w := by
  rw [← modField_toNat, ← rmField_toNat, resolve_eq] at h
  rcases hf : readRmForm read (modField m) (rmField m) p with e | ⟨f, q'⟩
  · simp [hf, Except.map] at h
  · obtain ⟨rfl, rfl⟩ : rmOperand f w = o ∧ q' = q := by simpa [hf, Except.map] using h
    exact ⟨f, rfl, rfl⟩

/-- The resolver stops right after the displacement or address bytes (R49). -/
theorem resolve_offset {o : Operand} {q : Nat}
    (h : Pseudocode.resolve read (Pseudocode.bits m 7 6) (Pseudocode.bits m 2 0) w p = .ok (o, q)) :
    q = p + Pseudocode.dispLen (Pseudocode.bits m 7 6) (Pseudocode.bits m 2 0) := by
  obtain ⟨f, hf, -⟩ := rmForm_of_resolve h
  obtain ⟨-, -, -, hq, -⟩ := readRmForm_spec hf
  rw [← modField_toNat, ← rmField_toNat, dispLen_toNat, hq]

variable {mod rm : Nat} {e : DecodeError}

/-- With an 8-bit displacement the resolver needs one byte (R77). -/
theorem resolve_error_disp8 (hmod : mod = 1) (h : read p = .error e) :
    Pseudocode.resolve read mod rm w p = .error e := by
  subst hmod
  simp [Pseudocode.resolve, h, bind, Except.bind]

/-- With a 16-bit displacement or a direct address the resolver needs the first of two bytes (R76, R78). -/
theorem resolve_error_word_first (hform : mod = 2 ∨ mod = 0 ∧ rm = 6) (h : read p = .error e) :
    Pseudocode.resolve read mod rm w p = .error e := by
  rcases hform with rfl | ⟨rfl, rfl⟩ <;> simp [Pseudocode.resolve, h, bind, Except.bind]

/-- With a 16-bit displacement or a direct address the resolver needs the second byte too (R76, R78). -/
theorem resolve_error_word_second {lo : Byte} (hform : mod = 2 ∨ mod = 0 ∧ rm = 6) (h0 : read p = .ok lo)
    (h1 : read (p + 1) = .error e) : Pseudocode.resolve read mod rm w p = .error e := by
  rcases hform with rfl | ⟨rfl, rfl⟩ <;> simp [Pseudocode.resolve, h0, h1, bind, Except.bind]

end

/-! ## The step (R90) -/

section
variable {s : State} {op m : Byte} (hst : s.st = .scanning) (hop : s.streamRead s.cur = .ok op)
  (hc : op &&& 0xFC = 0x88)
include hst hop hc

/-- The step raises what the read of the ModRM byte raises. -/
theorem step_regMemToFromReg_noModRm {e : DecodeError} (hm : s.streamRead (s.cur + 1) = .error e) :
    step s = .next (Pseudocode.stopped s (.decode e)) :=
  step_of_decodeOne_error hst (streamRead_eq_ok.mp hop).1 (decodeOne_regMemToFromReg_noModRm hop hc hm)

/-- The step raises what the resolver raises. -/
theorem step_regMemToFromReg_of_resolve_error {e : DecodeError} (hm : s.streamRead (s.cur + 1) = .ok m)
    (h : Pseudocode.resolve s.streamRead (Pseudocode.bits m 7 6) (Pseudocode.bits m 2 0) (Pseudocode.bit op 0)
      (s.cur + 2) = .error e) : step s = .next (Pseudocode.stopped s (.decode e)) := by
  refine step_of_decodeOne_error hst (streamRead_eq_ok.mp hop).1 ?_
  rw [decodeOne_regMemToFromReg hop hc hm, h]; rfl

/-- The step commits the record of the operand that the resolver answers. -/
theorem step_regMemToFromReg_of_resolve_ok {rmOp : Operand} {q : Nat} (hm : s.streamRead (s.cur + 1) = .ok m)
    (h : Pseudocode.resolve s.streamRead (Pseudocode.bits m 7 6) (Pseudocode.bits m 2 0) (Pseudocode.bit op 0)
      (s.cur + 2) = .ok (rmOp, q)) :
    step s = .next (Pseudocode.committed s (regMemToFromRegRecord s.cur op m rmOp q) q) := by
  refine step_of_decodeOne_ok hst (streamRead_eq_ok.mp hop).1 ?_
  rw [decodeOne_regMemToFromReg hop hc hm, h]; rfl

end

/-- The line of the example in R90, wherever the instruction stands. -/
theorem render_movCxBx (start q : Nat) :
    render (regMemToFromRegRecord start 0x89 0xD9 (.register .cx) q) = "mov cx, bx" := rfl

/-- Settles O31: the step raises what a missing byte's read raises, and otherwise commits the resolver's operand beside
the reg operand; the example has mod=3. -/
theorem regMemToFromRegFromBytes : Obligations.RegMemToFromRegFromBytes := by
  intro s op hst hop hc d w
  refine ⟨fun n hm => step_regMemToFromReg_noModRm hst hop hc hm, fun m hm => ⟨fun n hres => ?_, fun rmOp q hres => ?_⟩,
    ?_⟩
  · exact step_regMemToFromReg_of_resolve_error hst hop hc hm hres
  · exact ⟨resolve_offset hres, step_regMemToFromReg_of_resolve_ok hst hop hc hm hres⟩
  · rintro rfl hm
    refine ⟨_, step_regMemToFromReg_of_resolve_ok hst hop hc hm (resolve_mod3 (by decide)), ?_⟩
    exact congrArg (fun line => s.out ++ [line]) (render_movCxBx s.cur (s.cur + 2))

/-! ## The width of both operands (R91) -/

theorem isWordName_regName : ∀ (i : BitVec 3) (w : Bool), isWordName (regName i w) = w := by decide

/-- A register or memory operand, a register being one of width `w`. -/
def Operand.HasWidth (o : Operand) (w : Bool) : Prop := ∀ n, o = .register n → isWordName n = w

theorem register_hasWidth (i : BitVec 3) (w : Bool) : (Operand.register (regName i w)).HasWidth w := by
  rintro n ⟨⟩
  exact isWordName_regName i w

theorem rmOperand_hasWidth (f : RmForm) (w : Bool) : (rmOperand f w).HasWidth w := by
  cases f with
  | register i => exact register_hasWidth i w
  | _ => exact nofun

/-- Settles O18: one operand is the reg operand, the other the r/m operand, and both are resolved under the lead byte's
w bit. -/
theorem regMemOperandsShareTheWidth : Obligations.RegMemOperandsShareTheWidth := by
  intro s t r op hop hc hstep hr
  obtain ⟨-, -, -, hd⟩ := step_appends_record hstep hr
  generalize s.cur + r.len = q at hd
  obtain ⟨m, rmOp, hres, rfl⟩ := record_of_decodeOne_regMemToFromReg hop hc hd
  obtain ⟨f, -, rfl⟩ := rmForm_of_resolve hres
  have hreg := register_hasWidth (BitVec.ofNat 3 (Pseudocode.bits m 5 3)) (Pseudocode.bit op 0)
  have hrm := rmOperand_hasWidth f (Pseudocode.bit op 0)
  refine ⟨rfl, ?_⟩
  rcases regMemToFromRegRecord_operands s.cur op m (rmOperand f (Pseudocode.bit op 0)) q with
    ⟨hdst, hsrc⟩ | ⟨hdst, hsrc⟩ <;> rw [hdst, hsrc]
  · exact ⟨fun n hn => hn.elim (hreg n) (hrm n), fun _ _ _ => rfl, .inl ⟨_, rfl⟩⟩
  · exact ⟨fun n hn => hn.elim (hrm n) (hreg n), fun _ _ _ => rfl, .inr ⟨_, rfl⟩⟩

/-! ## Truncation (R93) -/

/-- Settles O37: the first offset whose read raises is the one at or past the stream's end. -/
theorem regMemToFromRegTruncation : Obligations.RegMemToFromRegTruncation := by
  intro s op hst hop hc
  refine ⟨fun hend => step_regMemToFromReg_noModRm hst hop hc (streamRead_ge hend), fun m hm => ?_⟩
  have raises : ∀ {n}, Pseudocode.resolve s.streamRead (Pseudocode.bits m 7 6) (Pseudocode.bits m 2 0)
      (Pseudocode.bit op 0) (s.cur + 2) = .error (.truncated n) →
      step s = .next (Pseudocode.stopped s (.decode (.truncated n))) :=
    step_regMemToFromReg_of_resolve_error hst hop hc hm
  refine ⟨fun hmod hend => raises (resolve_error_disp8 hmod (streamRead_ge hend)),
    fun hform => ⟨fun hend => ?_, fun hend => ?_⟩⟩
  · exact raises (resolve_error_word_first hform (streamRead_ge hend))
  · exact raises (resolve_error_word_second hform (streamRead_lt (by omega)) (streamRead_ge hend.ge))

end Sys2Proof.Machine
end

section
/-! PROOFS. MOV immediate to register/memory (43_mov_imm_rm.md): what its step does from the bytes of the stream (R100),
that the reg field reaches the record alone (R101), and where it is truncated (R104). -/

namespace Sys2Proof.Machine

/-! ## The record -/

/-- The record of an ImmToRegMem whose operands are `dst` and `src` and which ends at `q` (R100). -/
def immToRegMemRecord (start : Nat) (op m : Byte) (dst src : Operand) (q : Nat) : Decoded :=
  { leadAt := start, len := q - start, variant := .ImmToRegMem
    fields := Pseudocode.modRmFields none (some (Pseudocode.bit op 0)) m
    dst := dst, src := src }

/-- Without its ModRM byte an ImmToRegMem raises what the read of that byte raises. -/
theorem decodeOne_immToRegMem_noModRm {params : Config.Params} {read : ByteReader} {start : Nat} {op : Byte}
    {e : DecodeError} (hop : read start = .ok op) (hc : op &&& 0xFE = 0xC6) (hm : read (start + 1) = .error e) :
    Pseudocode.decodeOne params read start = .error (.decode e) := by
  simp [Pseudocode.decodeOne, hop, classify_of_immToRegMem_pattern op hc, Pseudocode.decodeIRM, hm, bind,
    Except.bind, Except.mapError]

/-! ## The step (R100) -/

section
variable {s : State} {op m : Byte} (hst : s.st = .scanning) (hop : s.streamRead s.cur = .ok op)
  (hc : op &&& 0xFE = 0xC6)
include hst hop hc

/-- The step raises what the read of the ModRM byte raises. -/
theorem step_immToRegMem_noModRm {e : DecodeError} (hm : s.streamRead (s.cur + 1) = .error e) :
    step s = .next (Pseudocode.stopped s (.decode e)) :=
  step_of_decodeOne_error hst (streamRead_eq_ok.mp hop).1 (decodeOne_immToRegMem_noModRm hop hc hm)

variable (hm : s.streamRead (s.cur + 1) = .ok m)
include hm

/-- The step raises what the resolver raises. -/
theorem step_immToRegMem_of_resolve_error {e : DecodeError}
    (h : Pseudocode.resolve s.streamRead (Pseudocode.bits m 7 6) (Pseudocode.bits m 2 0) (Pseudocode.bit op 0)
      (s.cur + 2) = .error e) : step s = .next (Pseudocode.stopped s (.decode e)) := by
  refine step_of_decodeOne_error hst (streamRead_eq_ok.mp hop).1 ?_
  rw [decodeOne_immToRegMem hop hc hm, h]; rfl

variable {dst : Operand} {p : Nat}
  (hres : Pseudocode.resolve s.streamRead (Pseudocode.bits m 7 6) (Pseudocode.bits m 2 0) (Pseudocode.bit op 0)
    (s.cur + 2) = .ok (dst, p))
include hres

/-- The step raises what the immediate reader raises where the resolver stopped. -/
theorem step_immToRegMem_of_readImmediate_error {e : DecodeError}
    (h : Pseudocode.readImmediate s.streamRead (Pseudocode.bit op 0) p = .error e) :
    step s = .next (Pseudocode.stopped s (.decode e)) := by
  refine step_of_decodeOne_error hst (streamRead_eq_ok.mp hop).1 ?_
  rw [decodeOne_immToRegMem hop hc hm, hres]
  simp only [Except.bind, h]; rfl

/-- The step commits the record of the resolver's operand and the immediate. -/
theorem step_immToRegMem_of_readImmediate_ok {src : Operand} {q : Nat}
    (h : Pseudocode.readImmediate s.streamRead (Pseudocode.bit op 0) p = .ok (src, q)) :
    step s = .next (Pseudocode.committed s (immToRegMemRecord s.cur op m dst src q) q) := by
  refine step_of_decodeOne_ok hst (streamRead_eq_ok.mp hop).1 ?_
  rw [decodeOne_immToRegMem hop hc hm, hres]
  simp only [Except.bind, h]; rfl

end

/-- The line of the example in R100, wherever the instruction stands. -/
theorem render_movBxSi4Byte29 (start q : Nat) :
    render (immToRegMemRecord start 0xC6 0x40 (.memory (.baseDisp .bxSi 4)) (.immediate 29 .byte) q) =
      "mov [bx + si + 4], byte 29" := rfl

/-- Settles O32: the step raises what a missing byte's read raises, in the order ModRM byte, displacement, data, and
otherwise commits; the example has mod=1 and w=0. -/
theorem immToRegMemFromBytes : Obligations.ImmToRegMemFromBytes := by
  intro s op hst hop hc w
  refine ⟨fun n hm => step_immToRegMem_noModRm hst hop hc hm,
    fun m hm => ⟨fun n hres => ?_, fun dst p hres => ?_⟩, ?_⟩
  · exact step_immToRegMem_of_resolve_error hst hop hc hm hres
  · exact ⟨resolve_offset hres, fun n himm => step_immToRegMem_of_readImmediate_error hst hop hc hm hres himm,
      fun src q himm => ⟨readImmediate_offset himm, step_immToRegMem_of_readImmediate_ok hst hop hc hm hres himm⟩⟩
  · rintro rfl hm hdisp hdata
    refine ⟨_, step_immToRegMem_of_readImmediate_ok hst hop hc hm (resolve_mod1 (by decide) hdisp)
      (readImmediate_byte hdata), ?_⟩
    exact congrArg (fun line => s.out ++ [line]) (render_movBxSi4Byte29 s.cur (s.cur + 4))

/-! ## The reg field (R101) -/

/-- A record with another reg field. -/
def Decoded.withReg (r : Decoded) (reg : BitVec 3) : Decoded := { r with fields := { r.fields with reg := some reg } }

/-- The line is made of the operands and the variant, so the reg field does not reach it (R85). -/
@[simp] theorem render_withReg (r : Decoded) (reg : BitVec 3) : render (r.withReg reg) = render r := rfl

section
variable {read read' : ByteReader} {p : Nat} (hread : ∀ k, p ≤ k → read' k = read k)
include hread

/-- The resolver reads nothing before its start. -/
theorem resolve_congr (mod rm : Nat) (w : Bool) :
    Pseudocode.resolve read' mod rm w p = Pseudocode.resolve read mod rm w p := by
  simp only [Pseudocode.resolve, hread p le_rfl, hread (p + 1) (Nat.le_succ p)]

/-- The immediate reader reads nothing before its start. -/
theorem readImmediate_congr (w : Bool) :
    Pseudocode.readImmediate read' w p = Pseudocode.readImmediate read w p := by
  simp only [Pseudocode.readImmediate, hread p le_rfl, hread (p + 1) (Nat.le_succ p)]

end

/-- Over two streams that agree but for the reg field of an ImmToRegMem's ModRM byte, `DecodeOne` raises the same or
gives records that differ in the reg field alone. -/
theorem decodeOne_immToRegMem_withReg {params params' : Config.Params} {read read' : ByteReader} {start : Nat}
    {op m m' : Byte} (hop : read start = .ok op) (hop' : read' start = .ok op) (hc : op &&& 0xFE = 0xC6)
    (hm : read (start + 1) = .ok m) (hm' : read' (start + 1) = .ok m')
    (hmod : Pseudocode.bits m' 7 6 = Pseudocode.bits m 7 6) (hrm : Pseudocode.bits m' 2 0 = Pseudocode.bits m 2 0)
    (hread : ∀ k, start + 2 ≤ k → read' k = read k) :
    Pseudocode.decodeOne params' read' start = (Pseudocode.decodeOne params read start).map fun rq =>
      (rq.1.withReg (BitVec.ofNat 3 (Pseudocode.bits m' 5 3)), rq.2) := by
  rw [decodeOne_immToRegMem hop' hc hm', decodeOne_immToRegMem hop hc hm, Pseudocode.modRmFields, hmod, hrm,
    resolve_congr hread]
  rcases hres : Pseudocode.resolve read (Pseudocode.bits m 7 6) (Pseudocode.bits m 2 0) (Pseudocode.bit op 0)
      (start + 2) with e | ⟨dst, p⟩
  · rfl
  · have hp : start + 2 ≤ p := by rw [resolve_offset hres]; exact Nat.le_add_right _ _
    simp only [Except.bind, readImmediate_congr fun k hk => hread k (hp.trans hk)]
    cases Pseudocode.readImmediate read (Pseudocode.bit op 0) p <;> rfl

/-- Settles O36: both steps follow `DecodeOne`, and what a stop and a commit write does not depend on the reg field, but
for the record itself. -/
theorem immToRegMemIgnoresTheRegField : Obligations.ImmToRegMemIgnoresTheRegField := by
  intro s u op m m' hst hust hcur hL hout hnotice hterm hrecs hop hc hm hm' hmod hrm hread
  obtain ⟨hlt, hB⟩ := streamRead_eq_ok.mp hop
  have hop' : u.streamRead s.cur = .ok op := (hread s.cur (by omega)).trans hop
  have hB' : u.B.read s.cur = op := (streamRead_eq_ok.mp hop').2
  have hult : u.cur < u.L := by omega
  have hd := decodeOne_immToRegMem_withReg (params := s.params) (params' := u.params) hop hop' hc hm hm' hmod hrm
    fun k hk => hread k (by omega)
  rcases hs : Pseudocode.decodeOne s.params s.streamRead s.cur with e | ⟨r, q⟩
  · rw [hs, ← hcur] at hd
    refine ⟨_, _, step_of_decodeOne_error hst hlt hs, step_of_decodeOne_error hust hult hd, hout, hcur, rfl,
      ?_, ?_, fun r hr => ?_⟩
    · simp [Pseudocode.stopped, hcur, hB, hB']
    · simp [Pseudocode.stopped, hnotice]
    · simp [Pseudocode.stopped] at hr
  · rw [hs, ← hcur] at hd
    refine ⟨_, _, step_of_decodeOne_ok hst hlt hs, step_of_decodeOne_ok hust hult hd, ?_, rfl,
      hust.trans hst.symm, hterm, hnotice, fun r' hr => ?_⟩
    · simp [Pseudocode.committed, hout]
    · obtain rfl : r = r' := by simpa [Pseudocode.committed] using hr
      simp [Pseudocode.committed, hrecs, Decoded.withReg]

/-! ## Truncation (R104) -/

/-- Which byte of a displacement or address an offset before `dispLen` is (R49). -/
theorem lt_dispLen {mod rm j : Nat} (hj : j < Pseudocode.dispLen mod rm) :
    (mod = 1 ∧ j = 0) ∨ ((mod = 2 ∨ mod = 0 ∧ rm = 6) ∧ (j = 0 ∨ j = 1)) := by
  unfold Pseudocode.dispLen at hj
  split at hj
  · split at hj <;> omega
  · omega
  · omega
  · omega

/-- The resolver raises at the first displacement or address byte that the stream does not hold (R30, R31). -/
theorem resolve_error_of_missing {s : State} {mod rm p j : Nat} (w : Bool) (hj : j < Pseudocode.dispLen mod rm)
    (hend : s.L ≤ p + j) (hin : ∀ i < j, p + i < s.L) :
    Pseudocode.resolve s.streamRead mod rm w p = .error (.truncated (p + j)) := by
  rcases lt_dispLen hj with ⟨hmod, rfl⟩ | ⟨hform, rfl | rfl⟩
  · exact resolve_error_disp8 hmod (streamRead_ge hend)
  · exact resolve_error_word_first hform (streamRead_ge hend)
  · exact resolve_error_word_second hform (streamRead_lt (hin 0 Nat.one_pos)) (streamRead_ge hend)

/-- Settles O38: the first offset whose read raises is in the displacement, or, when the stream holds all of that, in
the data. -/
theorem immToRegMemTruncation : Obligations.ImmToRegMemTruncation := by
  intro s op hst hop hc
  refine ⟨fun hend => step_immToRegMem_noModRm hst hop hc (streamRead_ge hend), ?_⟩
  intro m hm n k
  have hk : s.cur + k = s.cur + 2 + n := (Nat.add_assoc s.cur 2 n).symm
  have data_raises : s.cur + k ≤ s.L → ∀ {e},
      Pseudocode.readImmediate s.streamRead (Pseudocode.bit op 0) (s.cur + k) = .error e →
      step s = .next (Pseudocode.stopped s (.decode e)) := fun hle _ =>
    step_of_readImmediate_error hst hop (.inl ⟨hc, rfl, hle, m, hm, hk⟩)
  refine ⟨fun j hj hend hin => ?_, fun hdisp hend => ?_, fun hw hend => ?_⟩
  · exact step_immToRegMem_of_resolve_error hst hop hc hm (resolve_error_of_missing _ hj hend hin)
  · have hle : s.cur + k ≤ s.L := by
      have hmodRm := (streamRead_eq_ok.mp hm).1
      have hlast := hdisp (n - 1)
      omega
    exact data_raises hle (readImmediate_error_first _ (streamRead_ge hend))
  · rw [hw] at data_raises
    exact data_raises (by omega) (readImmediate_error_second (streamRead_lt (by omega)) (streamRead_ge hend.ge))

end Sys2Proof.Machine
end

section
/-! PROOFS. MOV immediate to register (44_mov_imm_reg.md): what its step does from the bytes of the stream (R110). -/

namespace Sys2Proof.Machine

/-- The record of an ImmToReg whose source is `src` and which ends at `q` (R110). -/
def immToRegRecord (start : Nat) (op : Byte) (src : Operand) (q : Nat) : Decoded :=
  let reg := BitVec.ofNat 3 (Pseudocode.bits op 2 0)
  { leadAt := start, len := q - start, variant := .ImmToReg
    fields := { w := some (Pseudocode.bit op 3), reg := some reg }
    dst := .register (regName reg (Pseudocode.bit op 3)), src := src }

section
variable {s : State} {op : Byte} (hst : s.st = .scanning) (hop : s.streamRead s.cur = .ok op)
  (hc : op &&& 0xF0 = 0xB0)
include hst hop hc

/-- The step raises what the immediate reader raises right past the lead byte. -/
theorem step_immToReg_of_readImmediate_error {e : DecodeError}
    (h : Pseudocode.readImmediate s.streamRead (Pseudocode.bit op 3) (s.cur + 1) = .error e) :
    step s = .next (Pseudocode.stopped s (.decode e)) :=
  step_of_readImmediate_error hst hop (.inr ⟨hc, rfl, rfl⟩) h

/-- The step commits the record of the immediate that is read right past the lead byte. -/
theorem step_immToReg_of_readImmediate_ok {src : Operand} {q : Nat}
    (h : Pseudocode.readImmediate s.streamRead (Pseudocode.bit op 3) (s.cur + 1) = .ok (src, q)) :
    step s = .next (Pseudocode.committed s (immToRegRecord s.cur op src q) q) := by
  refine step_of_decodeOne_ok hst (streamRead_eq_ok.mp hop).1 ?_
  rw [decodeOne_immToReg hop hc, h]; rfl

end

/-- The line of the example in R110, wherever the instruction stands. -/
theorem render_movAx9 (start q : Nat) :
    render (immToRegRecord start 0xB8 (.immediate 9 .word) q) = "mov ax, 9" := rfl

/-- Settles O33: the step raises what a missing data byte's read raises, and otherwise commits; the example has w=1 and
reg=0. -/
theorem immToRegFromBytes : Obligations.ImmToRegFromBytes := by
  intro s op hst hop hc w reg
  refine ⟨fun n himm => step_immToReg_of_readImmediate_error hst hop hc himm, fun src q himm => ?_, ?_⟩
  · exact ⟨readImmediate_offset himm, step_immToReg_of_readImmediate_ok hst hop hc himm⟩
  · rintro rfl hlo hhi
    refine ⟨_, step_immToReg_of_readImmediate_ok hst hop hc (readImmediate_word hlo hhi), ?_⟩
    exact congrArg (fun line => s.out ++ [line]) (render_movAx9 s.cur (s.cur + 3))

end Sys2Proof.Machine
end

section
/-! PROOFS. Precise stops (60_exceptions.md R145): a step that ends the run is one entry of a termination reason, from the
state before it. -/

namespace Sys2Proof.Machine

/-- The class of the lead byte is the variant of the instruction fetched (R61). -/
theorem classify_of_fetch {s : State} {i : Instr} {q : Nat} (h : s.fetchInstr = .ok (i, q)) :
    classify (s.B.read s.cur) = some i.variant := by
  obtain ⟨op, hop, hcases⟩ := decodeOne_ok_cases h
  obtain ⟨-, rfl⟩ := streamRead_eq_ok.mp hop
  rcases hcases with ⟨hc, _, _, _, _, rfl⟩ | ⟨hc, _, _, _, _, _, _, _, rfl⟩ | ⟨hc, _, _, rfl⟩ | ⟨hc, _, _, rfl⟩ |
    ⟨hc, _, _, rfl⟩ | ⟨hc, rfl, -⟩ | ⟨hc, rfl, -⟩ <;> exact hc

/-- A decode error raised inside a step enters its reason from the state before the step, and the reason is not
UnhandledVariant (R63). -/
theorem raise_eq_terminate (e : DecodeError) (s : State) :
    ∃ reason need, reason ≠ .unhandledVariant ∧ raise e (beginDecode s) = terminate reason need s := by
  rcases raise_cases e (beginDecode s) with ⟨-, -, hr⟩ | ⟨n, -, hr⟩
  · exact ⟨.error .unsupportedOpcode, none, nofun, hr⟩
  · exact ⟨.error .truncatedInstruction, some n, nofun, hr⟩

/-- A step commits a record, enters a reason other than UnhandledVariant, or raises UnhandledVariant of the lead byte's
class (R60, R63). -/
theorem step_commits_or_stops {s t : State} (h : step s = .next t) :
    (∃ r, t = commit r s) ∨
    (∃ reason need, reason ≠ .unhandledVariant ∧ t = terminate reason need s) ∨
    ∃ v, classify (s.B.read s.cur) = some v ∧ t = raiseUnhandled v s := by
  rcases step_cases h with ⟨-, ⟨-, rfl⟩ | ⟨-, i, q, hf, hx⟩ | ⟨-, e, -, rfl⟩⟩
  · exact .inr (.inl ⟨.exhausted, none, nofun, rfl⟩)
  · have hc := classify_of_fetch hf
    rcases exec_cases i s with ⟨r, hr, -⟩ | ⟨rfl, hu⟩ | ⟨rfl, hu⟩
    · exact .inl ⟨r, by simpa [hr, eq_comm] using hx⟩
    · exact .inr (.inr ⟨.RegMemToSeg, hc, by simpa [hu, eq_comm] using hx⟩)
    · exact .inr (.inr ⟨.SegToRegMem, hc, by simpa [hu, eq_comm] using hx⟩)
  · exact .inr (.inl (raise_eq_terminate e s))

/-- Settles O44: a step that ends the run commits nothing, so it is one entry of a reason, whose record names the cursor
and the lead byte. -/
theorem stopsArePrecise : Obligations.StopsArePrecise := by
  intro s t reason h hst
  rcases step_commits_or_stops h with ⟨r, rfl⟩ | ⟨reason', need, hne, rfl⟩ | ⟨v, hc, rfl⟩
  · simp at hst
  · obtain rfl : reason' = reason := by simpa using hst
    exact ⟨rfl, ⟨_, terminate_term reason' need s, rfl, rfl, leadByte_lt⟩, fun _ => rfl, fun heq => absurd heq hne⟩
  · obtain rfl : .unhandledVariant = reason := by simpa using hst
    exact ⟨rfl, ⟨_, raiseUnhandled_term v s, rfl, rfl, leadByte_lt⟩, fun hne => absurd rfl hne, fun _ => ⟨v, rfl, hc⟩⟩

end Sys2Proof.Machine
end

section
/-! PROOFS. Reset (70_reset_and_hazards.md section 1): what it puts in every element (R160), and that the stream and the
parameters stand through the run that follows (R161). -/

namespace Sys2Proof.Machine

/-! ## What a step and a run keep -/

/-- No step writes the stream, its length or the parameters (R10, R37). -/
theorem step_keeps_stream {s t : State} (h : step s = .next t) : t.B = s.B ∧ t.L = s.L ∧ t.params = s.params := by
  rcases step_commits_or_stops h with ⟨r, rfl⟩ | ⟨reason, need, -, rfl⟩ | ⟨v, -, rfl⟩
  · exact ⟨commit_B r s, commit_L r s, commit_params r s⟩
  · exact ⟨terminate_B reason need s, terminate_L reason need s, terminate_params reason need s⟩
  · exact ⟨raiseUnhandled_B v s, raiseUnhandled_L v s, raiseUnhandled_params v s⟩

theorem run_zero_eq_next {s t : State} : run 0 s = .next t ↔ s = t := by
  simp [run]

/-- A run of one more step answers a next state when its first step does and the rest of the run does from there. -/
theorem run_succ_eq_next {k : Nat} {s t : State} :
    run (k + 1) s = .next t ↔ ∃ u, step s = .next u ∧ run k u = .next t := by
  rw [run]
  cases step s <;> simp

/-- What every step keeps holds in every state of a run whose first state has it. -/
theorem run_keeps {P : State → Prop} (hstep : ∀ s t, P s → step s = .next t → P t) {k : Nat} {s t : State}
    (hs : P s) (h : run k s = .next t) : P t := by
  induction k generalizing s with
  | zero => exact run_zero_eq_next.mp h ▸ hs
  | succ k ih =>
    obtain ⟨u, hu, hrun⟩ := run_succ_eq_next.mp h
    exact ih (hstep s u hs hu) hrun

/-- No state of a run differs from its first in the stream, its length or the parameters. -/
theorem run_keeps_stream {k : Nat} {s t : State} (h : run k s = .next t) :
    t.B = s.B ∧ t.L = s.L ∧ t.params = s.params := by
  refine run_keeps (P := fun u => u.B = s.B ∧ u.L = s.L ∧ u.params = s.params) ?_ ⟨rfl, rfl, rfl⟩ h
  rintro u v ⟨hB, hL, hp⟩ hstep
  obtain ⟨hB', hL', hp'⟩ := step_keeps_stream hstep
  exact ⟨hB'.trans hB, hL'.trans hL, hp'.trans hp⟩

/-- Settles O50: the run keeps what reset left, and a read depends on the stream and its length alone. -/
theorem resetKeepsTheStreamForTheRun : Obligations.ResetKeepsTheStreamForTheRun := by
  intro s k t h
  obtain ⟨hB, hL, hp⟩ := run_keeps_stream h
  simp only [applyReset_B, applyReset_L, applyReset_params] at hB hL hp
  exact ⟨hB, hL, hp, congrFun (streamRead_congr hB hL)⟩

/-! ## The reset values -/

/-- The persistent elements of R160 at their reset values. -/
theorem applyReset_values (s : State) : s.applyReset.cur = 0 ∧ s.applyReset.st = .scanning ∧ s.applyReset.out = [] ∧
    s.applyReset.recs = [] ∧ s.applyReset.notice = none ∧ s.applyReset.term = none :=
  ⟨applyReset_cur s, applyReset_st s, applyReset_out s, applyReset_recs s, applyReset_notice s, applyReset_term s⟩

/-- Settles O49: reset writes every element but the stream and the parameters, a step needs `Scanning`, and the
machine's reset state is its own reset. -/
theorem resetPutsEveryElement : Obligations.ResetPutsEveryElement := by
  refine ⟨applyReset_values, fun _ _ => applyReset_congr, ?_, reset_applyReset ▸ applyReset_values State.reset⟩
  rintro s ⟨reason, hst⟩ t h
  exact nomatch hst.symm.trans (step_cases h).1

end Sys2Proof.Machine
end

section
/-! PROOFS. The decoder and the encoder (30_encoding.md sections 4 and 5): decoding is reading an instruction's encoding
where it stands, in both directions. -/

namespace Sys2Proof

/-! ## Bytes that stand at an offset -/

/-- The reader answers these bytes, one after another, from an offset on. -/
def HoldsAt (read : ByteReader) (p : Nat) (bytes : List Byte) : Prop :=
  ∀ k (hk : k < bytes.length), read (p + k) = .ok bytes[k]

section
variable {read : ByteReader} {p : Nat}

theorem holdsAt_nil : HoldsAt read p [] := fun _ hk => absurd hk (Nat.not_lt_zero _)

theorem holdsAt_cons {b : Byte} {bs : List Byte} :
    HoldsAt read p (b :: bs) ↔ read p = .ok b ∧ HoldsAt read (p + 1) bs := by
  refine ⟨fun h => ⟨h 0 (Nat.succ_pos _), fun k hk => ?_⟩, fun ⟨h0, hrest⟩ k hk => ?_⟩
  · have hread := h (k + 1) (Nat.succ_lt_succ hk)
    rwa [show p + (k + 1) = p + 1 + k from by omega] at hread
  · match k, hk with
    | 0, _ => exact h0
    | k + 1, hk =>
      rw [show p + (k + 1) = p + 1 + k from by omega]
      exact hrest k (Nat.lt_of_succ_lt_succ hk)

theorem holdsAt_append {bs cs : List Byte} :
    HoldsAt read p (bs ++ cs) ↔ HoldsAt read p bs ∧ HoldsAt read (p + bs.length) cs := by
  induction bs generalizing p with
  | nil => simp [holdsAt_nil]
  | cons b bs ih =>
    rw [List.cons_append, holdsAt_cons, holdsAt_cons, ih, and_assoc, List.length_cons,
      show p + (bs.length + 1) = p + 1 + bs.length from by omega]

theorem holdsAt_wordBytes {v : Word} :
    HoldsAt read p (wordBytes v) ↔ read p = .ok (Word.lo v) ∧ read (p + 1) = .ok (Word.hi v) := by
  simp [wordBytes, holdsAt_cons, holdsAt_nil]

end

/-- Bytes in the middle of a list stand where they stand. -/
theorem holdsAt_listReader_middle (before bytes after : List Byte) :
    HoldsAt (listReader (before ++ bytes ++ after)) before.length bytes := by
  intro k hk
  rw [listReader_eq_ok]
  exact ⟨by simp; omega, by simp [hk]⟩

/-- Bytes that stand at an offset of a list are the slice of it from there on. -/
theorem slice_of_holdsAt_listReader {bytes bs : List Byte} {start : Nat} (h : HoldsAt (listReader bytes) start bs) :
    (bytes.drop start).take bs.length = bs := by
  have hget : ∀ k (hk : k < bs.length), ∃ hlt : start + k < bytes.length, bytes[start + k] = bs[k] :=
    fun k hk => listReader_eq_ok.mp (h k hk)
  refine List.ext_getElem ?_ fun k hk hk' => ?_
  · rcases Nat.eq_zero_or_pos bs.length with h0 | hpos
    · simp [h0]
    · obtain ⟨hlt, -⟩ := hget (bs.length - 1) (by omega)
      simp; omega
  · obtain ⟨_, hb⟩ := hget k hk'
    simpa using hb

/-! ## The parts of an encoding, read back -/

section
variable {read : ByteReader} {p : Nat}

theorem readWordLe_of_holdsAt {v : Word} (h : HoldsAt read p (wordBytes v)) : readWordLe read p = .ok (v, p + 2) :=
  have ⟨hlo, hhi⟩ := holdsAt_wordBytes.mp h
  readWordLe_eq_ok.mpr ⟨_, _, hlo, hhi, (wordLe_lo_hi v).symm, rfl⟩

/-- The resolver reads a well-formed r/m form back from its own fields and bytes (R73). -/
theorem readRmForm_of_holdsAt {f : RmForm} (hw : f.wellFormed = true) (h : HoldsAt read p f.bytes) :
    readRmForm read f.modValue f.rmValue p = .ok (f, p + f.bytes.length) := by
  rw [readRmForm_eq_ok]
  cases f with
  | register i => exact .inl ⟨rfl, rfl, rfl⟩
  | baseOnly b =>
    have hrm : b.rmValue ≠ 6#3 := by revert hw; cases b <;> decide
    exact .inr (.inl ⟨rfl, hrm, by simp [RmForm.rmValue], rfl⟩)
  | direct a => exact .inr (.inr (.inl ⟨rfl, rfl, a, readWordLe_of_holdsAt h, rfl⟩))
  | disp8 b d =>
    exact .inr (.inr (.inr (.inl ⟨rfl, d, (holdsAt_cons.mp h).1, by simp [RmForm.rmValue], rfl⟩)))
  | disp16 b d =>
    exact .inr (.inr (.inr (.inr ⟨rfl, d, readWordLe_of_holdsAt h, by simp [RmForm.rmValue]⟩)))

/-- The immediate reader reads an immediate back from its own width and bytes (R79). -/
theorem readImmData_of_holdsAt {imm : ImmData} (h : HoldsAt read p imm.bytes) :
    readImmData read imm.wBit p = .ok (imm, p + imm.bytes.length) := by
  rw [readImmData_eq_ok]
  cases imm with
  | byte b => exact .inl ⟨rfl, b, (holdsAt_cons.mp h).1, rfl, rfl⟩
  | word v => exact .inr ⟨rfl, v, readWordLe_of_holdsAt h, rfl⟩

end

/-! ## Decoding an encoding -/

/-- Where the encoding of a well-formed instruction stands, the decoder answers the instruction, and the offset one past
its last byte. -/
theorem decodeOne_of_holdsAt_encode {read : ByteReader} {start : Nat} {i : Instr} (hw : i.wellFormed = true)
    (h : HoldsAt read start (encode i)) : decodeOne read start = .ok (i, start + (encode i).length) := by
  cases i with
  | regMemToFromReg d w reg rm =>
    obtain ⟨hop, hrest⟩ := holdsAt_cons.mp h
    obtain ⟨hm, hrm⟩ := holdsAt_cons.mp hrest
    have hf := readRmForm_of_holdsAt hw hrm
    rw [show start + (encode (.regMemToFromReg d w reg rm)).length = start + 1 + 1 + rm.bytes.length by
      simp only [encode, List.length_cons]; omega]
    simp [decodeOne, hop, classify_leadRegMemToFromReg, decodeRegMemToFromReg, hm, hf, dBit_leadRegMemToFromReg,
      wBit_leadRegMemToFromReg, bind, Except.bind, pure, Except.pure]
  | immToRegMem reg rm imm =>
    obtain ⟨hop, hrest⟩ := holdsAt_cons.mp h
    obtain ⟨hm, hbytes⟩ := holdsAt_cons.mp hrest
    obtain ⟨hrm, himm⟩ := holdsAt_append.mp hbytes
    have hf := readRmForm_of_holdsAt hw hrm
    have hd := readImmData_of_holdsAt himm
    rw [show start + (encode (.immToRegMem reg rm imm)).length =
      start + 1 + 1 + rm.bytes.length + imm.bytes.length by
        simp only [encode, List.length_cons, List.length_append]; omega]
    simp [decodeOne, hop, classify_leadImmToRegMem, decodeImmToRegMem, hm, hf, wBit_leadImmToRegMem, hd, bind,
      Except.bind, pure, Except.pure]
  | immToReg reg imm =>
    obtain ⟨hop, himm⟩ := holdsAt_cons.mp h
    have hd := readImmData_of_holdsAt himm
    rw [show start + (encode (.immToReg reg imm)).length = start + 1 + imm.bytes.length by
      simp only [encode, List.length_cons]; omega]
    simp [decodeOne, hop, classify_leadImmToReg, decodeImmToReg, wImmBit_leadImmToReg, regImmField_leadImmToReg, hd,
      bind, Except.bind, pure, Except.pure]
  | memToAcc w a =>
    obtain ⟨hop, ha⟩ := holdsAt_cons.mp h
    have hd := readWordLe_of_holdsAt ha
    simp [decodeOne, hop, classify_leadMemToAcc, decodeMemToAcc, wBit_leadMemToAcc, hd, encode, bind, Except.bind, pure,
      Except.pure]
  | accToMem w a =>
    obtain ⟨hop, ha⟩ := holdsAt_cons.mp h
    have hd := readWordLe_of_holdsAt ha
    simp [decodeOne, hop, classify_leadAccToMem, decodeAccToMem, wBit_leadAccToMem, hd, encode, bind, Except.bind, pure,
      Except.pure]
  | regMemToSeg =>
    have hc : classify 0b10001110#8 = some .RegMemToSeg := by decide
    simp [decodeOne, (holdsAt_cons.mp h).1, hc, encode, bind, Except.bind, pure, Except.pure]
  | segToRegMem =>
    have hc : classify 0b10001100#8 = some .SegToRegMem := by decide
    simp [decodeOne, (holdsAt_cons.mp h).1, hc, encode, bind, Except.bind, pure, Except.pure]

/-- Settles O1: the encoding stands where it was put, and the decoder reads back what stands there. -/
theorem decodeOfEncodedInstructionIsTheInstruction : Obligations.DecodeOfEncodedInstructionIsTheInstruction :=
  fun i before after hw => decodeOne_of_holdsAt_encode hw (holdsAt_listReader_middle before (encode i) after)

/-! ## Encoding what was decoded -/

/-- A word that was read stands where it was read. -/
theorem holdsAt_of_readWordLe {read : ByteReader} {p q : Nat} {v : Word} (h : readWordLe read p = .ok (v, q)) :
    HoldsAt read p (wordBytes v) := by
  obtain ⟨lo, hi, hlo, hhi, rfl, -⟩ := readWordLe_eq_ok.mp h
  exact holdsAt_wordBytes.mpr ⟨by simpa using hlo, by simpa using hhi⟩

/-- A ModRM byte is the one of its reg field and of the r/m form that was read under its other two fields. -/
theorem modRmByte_of_readRmForm {read : ByteReader} {m : Byte} {p q : Nat} {f : RmForm}
    (h : readRmForm read (modField m) (rmField m) p = .ok (f, q)) : modRmByte (regField m) f = m := by
  obtain ⟨-, hmod, hrm, -⟩ := readRmForm_spec h
  rw [modRmByte, hmod, hrm, modRm_fields]

/-- An instruction that is decoded is well formed, and its encoding stands where it was decoded. -/
theorem holdsAt_encode_of_decodeOne {read : ByteReader} {start q : Nat} {i : Instr}
    (h : decodeOne read start = .ok (i, q)) : i.wellFormed = true ∧ HoldsAt read start (encode i) := by
  obtain ⟨op, hop, hcases⟩ := decodeOne_ok_cases h
  rcases hcases with ⟨hc, m, rm, hm, hf, rfl⟩ | ⟨hc, m, rm, q', imm, hm, hf, hd, rfl⟩ | ⟨hc, imm, hd, rfl⟩ |
    ⟨hc, a, ha, rfl⟩ | ⟨hc, a, ha, rfl⟩ | ⟨hc, rfl, -⟩ | ⟨hc, rfl, -⟩
  · obtain ⟨hw, -, -, -, -, hbytes⟩ := readRmForm_spec hf
    rw [encode, ← lead_of_classify_regMemToFromReg op hc, modRmByte_of_readRmForm hf]
    exact ⟨hw, holdsAt_cons.mpr ⟨hop, holdsAt_cons.mpr ⟨hm, hbytes⟩⟩⟩
  · obtain ⟨hw, -, -, hq', hlen, hbytes⟩ := readRmForm_spec hf
    obtain ⟨hwBit, -, -, hdata⟩ := readImmData_spec hd
    rw [encode, hwBit, ← lead_of_classify_immToRegMem op hc, modRmByte_of_readRmForm hf]
    rw [hq', ← hlen] at hdata
    exact ⟨hw, holdsAt_cons.mpr ⟨hop, holdsAt_cons.mpr ⟨hm, holdsAt_append.mpr ⟨hbytes, hdata⟩⟩⟩⟩
  · obtain ⟨hwBit, -, -, hdata⟩ := readImmData_spec hd
    rw [encode, hwBit, ← lead_of_classify_immToReg op hc]
    exact ⟨rfl, holdsAt_cons.mpr ⟨hop, hdata⟩⟩
  · rw [encode, ← lead_of_classify_memToAcc op hc]
    exact ⟨rfl, holdsAt_cons.mpr ⟨hop, holdsAt_of_readWordLe ha⟩⟩
  · rw [encode, ← lead_of_classify_accToMem op hc]
    exact ⟨rfl, holdsAt_cons.mpr ⟨hop, holdsAt_of_readWordLe ha⟩⟩
  · obtain rfl := lead_of_classify_regMemToSeg op hc
    exact ⟨rfl, holdsAt_cons.mpr ⟨hop, holdsAt_nil⟩⟩
  · obtain rfl := lead_of_classify_segToRegMem op hc
    exact ⟨rfl, holdsAt_cons.mpr ⟨hop, holdsAt_nil⟩⟩

/-- A well-formed instruction has the length of its encoding (R48). -/
theorem encode_length {i : Instr} (hw : i.wellFormed = true) : (encode i).length = i.length := by
  cases i with
  | regMemToFromReg d w reg rm => exact (Laws.EncodeLength.regMemToFromReg d w reg rm hw).1
  | immToRegMem reg rm imm => exact (Laws.EncodeLength.immToRegMem reg rm imm hw).1
  | immToReg reg imm => exact (Laws.EncodeLength.immToReg reg imm hw).1
  | _ => rfl

/-- Settles O2: the encoding stands where the instruction was decoded, and it ends inside the bytes, since its last byte
was read. -/
theorem decodedInstructionEncodesToTheBytesConsumed : Obligations.DecodedInstructionEncodesToTheBytesConsumed := by
  intro bytes start q i h
  obtain ⟨hw, hat⟩ := holdsAt_encode_of_decodeOne h
  obtain ⟨rfl, hread⟩ := Machine.decodeOne_reads h
  have hpos := (Machine.instr_length_bounds i).1
  obtain ⟨b, hb⟩ := hread (i.length - 1) (by omega)
  obtain ⟨hlast, -⟩ := listReader_eq_ok.mp hb
  exact ⟨hw, rfl, by omega, by rw [← encode_length hw]; exact slice_of_holdsAt_listReader hat⟩

/-- Settles O7: each word is decoded as the layouts give. -/
theorem specWordsDecodeAsWritten : Obligations.SpecWordsDecodeAsWritten := by
  unfold Obligations.SpecWordsDecodeAsWritten
  decide

namespace Machine

/-! ## The step on what the decoder answers -/

/-- A fetch that answers an instruction read a lead byte inside the stream. -/
theorem cur_lt_of_fetch {s : State} {i : Instr} {q : Nat} (h : s.fetchInstr = .ok (i, q)) : s.cur < s.L := by
  obtain ⟨op, hop, -⟩ := decodeOne_ok_cases h
  exact (streamRead_eq_ok.mp hop).1

/-- Settles O8: the instruction fetched is run inside `Decoding`, which no meaning reads. -/
theorem stepRunsTheDecodedInstruction : Obligations.StepRunsTheDecodedInstruction := by
  intro s i q hst hf
  have hstep := step_fetch_ok hst (cur_lt_of_fetch hf).ne hf
  exact ⟨hstep.trans (exec_beginDecode i s).symm, hstep⟩

/-- Settles O9: the encoding that stands at the cursor is decoded to the instruction. -/
theorem stepRunsTheInstructionAtTheCursor : Obligations.StepRunsTheInstructionAtTheCursor := by
  intro s i hst hw hat
  have hf : s.fetchInstr = .ok (i, s.cur + (encode i).length) := decodeOne_of_holdsAt_encode hw hat
  exact ⟨hf, step_fetch_ok hst (cur_lt_of_fetch hf).ne hf⟩

end Machine

end Sys2Proof
end

section
/-! PROOFS. The opcode classifier (30_encoding.md section 2): the map of the lead bytes (R44), and the independence of
the table's order (R43). -/

namespace Sys2Proof

/-! ## The map of the lead bytes -/

theorem classify_regMemToFromReg_range : ∀ op : Byte, 0x88 ≤ op.toNat ∧ op.toNat ≤ 0x8B →
    classify op = some .RegMemToFromReg := by decide
theorem classify_segToRegMem_byte : ∀ op : Byte, op.toNat = 0x8C → classify op = some .SegToRegMem := by decide
theorem classify_regMemToSeg_byte : ∀ op : Byte, op.toNat = 0x8E → classify op = some .RegMemToSeg := by decide
theorem classify_memToAcc_range : ∀ op : Byte, 0xA0 ≤ op.toNat ∧ op.toNat ≤ 0xA1 →
    classify op = some .MemToAcc := by decide
theorem classify_accToMem_range : ∀ op : Byte, 0xA2 ≤ op.toNat ∧ op.toNat ≤ 0xA3 →
    classify op = some .AccToMem := by decide
theorem classify_immToReg_range : ∀ op : Byte, 0xB0 ≤ op.toNat ∧ op.toNat ≤ 0xBF →
    classify op = some .ImmToReg := by decide
theorem classify_immToRegMem_range : ∀ op : Byte, 0xC6 ≤ op.toNat ∧ op.toNat ≤ 0xC7 →
    classify op = some .ImmToRegMem := by decide
/-- The other 228 lead bytes. -/
theorem classify_unmapped : ∀ op : Byte, op.toNat ≤ 0x87 ∨ op.toNat = 0x8D ∨ (0x8F ≤ op.toNat ∧ op.toNat ≤ 0x9F) ∨
    (0xA4 ≤ op.toNat ∧ op.toNat ≤ 0xAF) ∨ (0xC0 ≤ op.toNat ∧ op.toNat ≤ 0xC5) ∨ 0xC8 ≤ op.toNat →
    classify op = none := by decide
/-- The override, LOCK and repeat bytes are among them. -/
theorem classify_override_lock_repeat : ∀ op ∈ [0x26#8, 0x2E#8, 0x36#8, 0x3E#8, 0xF0#8, 0xF2#8, 0xF3#8],
    classify op = none := by decide

/-- A lead byte without a class makes the decoder raise UnsupportedOpcode with that byte (R42). -/
theorem decodeOne_of_classify_none {read : ByteReader} {start : Nat} {op : Byte} (hop : read start = .ok op)
    (hc : classify op = none) : decodeOne read start = .error (.unsupportedOpcode op) := by
  simp [decodeOne, hop, hc, bind, Except.bind, throw, throwThe, MonadExceptOf.throw]

/-- Settles O3: each range classifies as the map says, and outside them the decoder raises. -/
theorem opcodeMapOfEveryLeadByte : Obligations.OpcodeMapOfEveryLeadByte := fun _ _ op hop =>
  ⟨classify_regMemToFromReg_range op, classify_segToRegMem_byte op, classify_regMemToSeg_byte op,
    classify_memToAcc_range op, classify_accToMem_range op, classify_immToReg_range op, classify_immToRegMem_range op,
    fun h => decodeOne_of_classify_none hop (classify_unmapped op h),
    fun h => decodeOne_of_classify_none hop (classify_override_lock_repeat op h)⟩

/-! ## The first match is the unique match -/

theorem matchesByte_iff {r : PatternRow} {op : Byte} : r.matchesByte op = true ↔ op &&& r.mask = r.expected :=
  beq_iff_eq

/-- No lead byte matches two rows (R43). -/
theorem patternTable_disjoint : ∀ op : Byte, ∀ r ∈ patternTable, ∀ r' ∈ patternTable,
    op &&& r.mask = r.expected → op &&& r'.mask = r'.expected → r = r' := by decide

/-- In any table whose rows are disjoint at a lead byte, the first row that the byte matches is the only one. -/
theorem firstMatch_eq_some_iff {table : List PatternRow} {op : Byte} {v : OpcodeVariant}
    (hdisj : ∀ r ∈ table, ∀ r' ∈ table, op &&& r.mask = r.expected → op &&& r'.mask = r'.expected → r = r') :
    firstMatch table op = some v ↔ ∃ r ∈ table, op &&& r.mask = r.expected ∧ r.variant = v := by
  have found : ∀ {r : PatternRow}, table.find? (fun r => r.matchesByte op) = some r →
      r ∈ table ∧ op &&& r.mask = r.expected := fun h =>
    ⟨List.mem_of_find?_eq_some h,
      matchesByte_iff.mp (List.find?_some (p := fun r : PatternRow => r.matchesByte op) h)⟩
  rw [firstMatch, Option.map_eq_some_iff]
  constructor
  · rintro ⟨r, hfind, hv⟩
    exact ⟨r, (found hfind).1, (found hfind).2, hv⟩
  · rintro ⟨r, hr, hmatch, hv⟩
    obtain ⟨r', hfind⟩ := Option.isSome_iff_exists.mp
      (List.find?_isSome (p := fun r => r.matchesByte op) |>.mpr ⟨r, hr, matchesByte_iff.mpr hmatch⟩)
    obtain rfl : r' = r := hdisj r' (found hfind).1 r hr (found hfind).2 hmatch
    exact ⟨r', hfind, hv⟩

/-- A byte's class is the variant of the row it matches (R42, R43). -/
theorem classify_eq_some_iff {op : Byte} {v : OpcodeVariant} :
    classify op = some v ↔ ∃ r ∈ patternTable, op &&& r.mask = r.expected ∧ r.variant = v :=
  firstMatch_eq_some_iff (patternTable_disjoint op)

/-- Any order of the rows gives every lead byte the same class. -/
theorem firstMatch_of_perm {op : Byte} {table : List PatternRow} (hperm : table.Perm patternTable) :
    firstMatch table op = classify op := by
  refine Option.ext fun v => ?_
  rw [classify_eq_some_iff, firstMatch_eq_some_iff fun r hr r' hr' =>
    patternTable_disjoint op r (hperm.mem_iff.mp hr) r' (hperm.mem_iff.mp hr')]
  simp only [hperm.mem_iff]

/-- A byte has no class exactly when it matches no row. -/
theorem classify_eq_none_iff {op : Byte} :
    classify op = none ↔ ∀ r ∈ patternTable, op &&& r.mask ≠ r.expected := by
  rw [Option.eq_none_iff_forall_ne_some]
  simp only [ne_eq, classify_eq_some_iff]
  exact ⟨fun h r hr hmatch => h r.variant ⟨r, hr, hmatch, rfl⟩, fun h v ⟨r, hr, hmatch, _⟩ => h r hr hmatch⟩

/-- Settles O4: since the rows are disjoint, the first match is the unique one, whatever the order. -/
theorem classIsTheUniqueRowInAnyOrder : Obligations.ClassIsTheUniqueRowInAnyOrder :=
  ⟨fun op r r' hr hr' => patternTable_disjoint op r hr r' hr', fun _ _ => classify_eq_some_iff,
    fun _ _ => firstMatch_of_perm, rfl⟩

end Sys2Proof
end

section
/-! PROOFS. What a step can do, said once with all that holds where it does it (40_decode_loop.md R60 to R63,
60_exceptions.md R140 to R145), and what follows for the cursor, the outputs, the termination record and the notice. -/

namespace Sys2Proof.Machine

/-! ## Where the stream ends under an instruction (R144) -/

section
variable {s : State} {p : Nat} {e : DecodeError} (hp : p ≤ s.L)
include hp

/-- A read that raises right where the stream was known to reach raises at its end. -/
theorem streamRead_error_at_end (h : s.streamRead p = .error e) : e = .truncated s.L := by
  obtain ⟨hge, rfl⟩ := streamRead_eq_error.mp h
  rw [Nat.le_antisymm hp hge]

theorem readWordLe_error_at_end (h : readWordLe s.streamRead p = .error e) : e = .truncated s.L := by
  rcases readWordLe_eq_error.mp h with hlo | ⟨lo, hlo, hhi⟩
  · exact streamRead_error_at_end hp hlo
  · exact streamRead_error_at_end (streamRead_eq_ok.mp hlo).1 hhi

theorem readImmData_error_at_end {w : Bool} (h : readImmData s.streamRead w p = .error e) : e = .truncated s.L := by
  rcases readImmData_eq_error.mp h with ⟨-, hb⟩ | ⟨-, hv⟩
  · exact streamRead_error_at_end hp hb
  · exact readWordLe_error_at_end hp hv

theorem readRmForm_error_at_end {mod : BitVec 2} {rm : BitVec 3} (h : readRmForm s.streamRead mod rm p = .error e) :
    e = .truncated s.L := by
  rcases readRmForm_eq_error.mp h with ⟨-, -, ha⟩ | ⟨-, hb⟩ | ⟨-, hd⟩
  · exact readWordLe_error_at_end hp ha
  · exact streamRead_error_at_end hp hb
  · exact readWordLe_error_at_end hp hd

/-- The resolver stops inside the stream. -/
theorem readRmForm_offset_le {mod : BitVec 2} {rm : BitVec 3} {f : RmForm} {q : Nat}
    (h : readRmForm s.streamRead mod rm p = .ok (f, q)) : q ≤ s.L := by
  obtain ⟨-, -, -, hq, hlen, hbytes⟩ := readRmForm_spec h
  rcases Nat.eq_zero_or_pos f.bytes.length with h0 | hpos
  · omega
  · have hlast := (streamRead_eq_ok.mp (hbytes (f.bytes.length - 1) (by omega))).1
    omega

end

/-- A fetch inside the stream raises for one of two reasons: the lead byte has no class, or the stream ends under an
instruction of a decoded variant, and then at its length exactly. -/
theorem fetch_error_cases {s : State} {e : DecodeError} (hlt : s.cur < s.L) (h : s.fetchInstr = .error e) :
    (classify (s.B.read s.cur) = none ∧ e = .unsupportedOpcode (s.B.read s.cur)) ∨
    ∃ v, classify (s.B.read s.cur) = some v ∧ isSegmentForm v = false ∧ e = .truncated s.L := by
  rcases decodeOne_error_cases h with hop | ⟨op, hop, hcases⟩
  · simp [streamRead_lt hlt] at hop
  · obtain ⟨-, rfl⟩ := streamRead_eq_ok.mp hop
    have modRm : ∀ {m}, s.streamRead (s.cur + 1) = .ok m → s.cur + 2 ≤ s.L := fun hm => (streamRead_eq_ok.mp hm).1
    rcases hcases with ⟨hc, rfl⟩ | ⟨hc, hm⟩ | ⟨hc, m, hm, hf⟩ | ⟨hc, m, rm, q, hm, hf, hd⟩ | ⟨hc, hd⟩ | ⟨hc, ha⟩
    · exact .inl ⟨hc, rfl⟩
    · have he := streamRead_error_at_end hlt hm
      exact .inr (hc.elim (fun hc => ⟨_, hc, rfl, he⟩) fun hc => ⟨_, hc, rfl, he⟩)
    · have he := readRmForm_error_at_end (modRm hm) hf
      exact .inr (hc.elim (fun hc => ⟨_, hc, rfl, he⟩) fun hc => ⟨_, hc, rfl, he⟩)
    · exact .inr ⟨_, hc, rfl, readImmData_error_at_end (readRmForm_offset_le (modRm hm) hf) hd⟩
    · exact .inr ⟨_, hc, rfl, readImmData_error_at_end hlt hd⟩
    · have he := readWordLe_error_at_end hlt ha
      exact .inr (hc.elim (fun hc => ⟨_, hc, rfl, he⟩) fun hc => ⟨_, hc, rfl, he⟩)

/-! ## The outcomes of a step -/

/-- Raising UnhandledVariant is no commit: it ends the run. -/
theorem raiseUnhandled_ne_commit {v : OpcodeVariant} {r : Decoded} {s : State} : raiseUnhandled v s ≠ commit r s :=
  fun h => nomatch congrArg State.st h

theorem exec_next_unique {i : Instr} {s t t' : State} (h : exec i s = .next t) (h' : exec i s = .next t') : t = t' :=
  Host.Outcome.next.inj (h.symm.trans h')

/-- A meaning commits one record. -/
theorem exec_commit_unique {i : Instr} {s : State} {r r' : Decoded} (h : exec i s = .next (commit r s))
    (h' : exec i s = .next (commit r' s)) : r = r' := commit_injective (exec_next_unique h h')

/-- What a meaning that commits is of: a decoded variant, whose length and variant its record has, at the cursor. -/
theorem record_of_exec {i : Instr} {s : State} {r : Decoded} (h : exec i s = .next (commit r s)) :
    r.leadAt = s.cur ∧ r.len = i.length ∧ r.variant = i.variant ∧ isSegmentForm i.variant = false := by
  rcases exec_cases i s with ⟨r', hx, hfacts⟩ | ⟨-, hx⟩ | ⟨-, hx⟩
  · obtain rfl := exec_commit_unique hx h
    exact hfacts
  · exact absurd (exec_next_unique hx h) raiseUnhandled_ne_commit
  · exact absurd (exec_next_unique hx h) raiseUnhandled_ne_commit

/-- The state that a step leaves, with what holds where it does: one constructor for each of the ways a step can go. -/
inductive StepOutcome (s : State) : State → Prop
  /-- A record was decoded and committed (R62). -/
  | committed {i : Instr} {r : Decoded} (fetched : s.fetchInstr = .ok (i, s.cur + i.length))
      (meaning : exec i s = .next (commit r s))
      (decoded : Pseudocode.decodeOne s.params s.streamRead s.cur = .ok (r, s.cur + r.len)) :
      StepOutcome s (commit r s)
  /-- The cursor stood at the end of the stream (R60). -/
  | exhausted (atEnd : s.cur = s.L) : StepOutcome s (terminate .exhausted none s)
  /-- The lead byte has no class (R141). -/
  | unsupported (inside : s.cur < s.L) (unclassified : classify (s.B.read s.cur) = none) :
      StepOutcome s (terminate (.error .unsupportedOpcode) none s)
  /-- The stream ends under an instruction of a decoded variant (R142). -/
  | truncated {v : OpcodeVariant} (inside : s.cur < s.L) (class_eq : classify (s.B.read s.cur) = some v)
      (decodedVariant : isSegmentForm v = false) (fetched : s.fetchInstr = .error (.truncated s.L)) :
      StepOutcome s (terminate (.error .truncatedInstruction) (some s.L) s)
  /-- The lead byte is a segment form's (R143). -/
  | unhandled {v : OpcodeVariant} (inside : s.cur < s.L)
      (lead : v = .RegMemToSeg ∧ s.B.read s.cur = 0x8E ∨ v = .SegToRegMem ∧ s.B.read s.cur = 0x8C) :
      StepOutcome s (raiseUnhandled v s)
  /-- The cursor stood past the end of the stream, as it does in no run (R65). -/
  | pastEnd (beyond : s.L < s.cur) : StepOutcome s (terminate (.error .truncatedInstruction) (some s.cur) s)

theorem stepOutcome_of_fetch {s t : State} {i : Instr} {q : Nat} (hf : s.fetchInstr = .ok (i, q))
    (hx : exec i s = .next t) : StepOutcome s t := by
  obtain ⟨rfl, -⟩ := decodeOne_reads hf
  have hc := classify_of_fetch hf
  rcases exec_cases i s with ⟨r, hr, -⟩ | ⟨rfl, hu⟩ | ⟨rfl, hu⟩
  · obtain rfl := exec_next_unique hr hx
    rcases pseudocode_decodeOne_of_fetch hf with ⟨r', hd, hr'⟩ | ⟨v, -, hu⟩
    · obtain rfl := exec_commit_unique hr' hr
      exact .committed hf hr hd
    · exact absurd (exec_next_unique hu hr) raiseUnhandled_ne_commit
  · obtain rfl := exec_next_unique hu hx
    exact .unhandled (cur_lt_of_fetch hf) (.inl ⟨rfl, lead_of_classify_regMemToSeg _ hc⟩)
  · obtain rfl := exec_next_unique hu hx
    exact .unhandled (cur_lt_of_fetch hf) (.inr ⟨rfl, lead_of_classify_segToRegMem _ hc⟩)

/-- Every step has one of the outcomes. -/
theorem step_outcome {s t : State} (h : step s = .next t) : StepOutcome s t := by
  rcases step_cases h with ⟨-, ⟨hc, rfl⟩ | ⟨-, i, q, hf, hx⟩ | ⟨hne, e, hf, rfl⟩⟩
  · exact .exhausted hc
  · exact stepOutcome_of_fetch hf hx
  · rcases Nat.lt_or_gt_of_ne hne with hlt | hgt
    · rcases fetch_error_cases hlt hf with ⟨hc, rfl⟩ | ⟨v, hc, hv, rfl⟩
      · exact .unsupported hlt hc
      · exact .truncated hlt hc hv hf
    · have hread : s.streamRead s.cur = .error (.truncated s.cur) := streamRead_ge hgt.le
      obtain rfl : .truncated s.cur = e := by
        simpa [State.fetchInstr, decodeOne, hread, bind, Except.bind] using hf
      exact .pastEnd hgt

/-- Settles O41: of the outcomes only a commit goes on scanning. -/
theorem commitWritesRecordLineAndCursor : Obligations.CommitWritesRecordLineAndCursor := by
  intro s t h hst
  cases step_outcome h with
  | committed hf hx hd => exact ⟨_, hd, (record_of_exec hx).1, commit_eq_committed (step_cases h).1 _⟩
  | exhausted | unsupported | truncated | unhandled | pastEnd => exact nomatch hst

/-! ## The stream and the cursor -/

/-- Settles O12: a step keeps the stream and its length, on which alone a read depends. -/
theorem noStepWritesTheStream : Obligations.NoStepWritesTheStream := by
  intro s t h
  obtain ⟨hB, hL, hp⟩ := step_keeps_stream h
  exact ⟨hB, hL, hp, congrFun (streamRead_congr hB hL)⟩

/-- Every byte of an instruction that is fetched is in the stream (R31, R65). -/
theorem fetch_in_stream {s : State} {i : Instr} {q : Nat} (h : s.fetchInstr = .ok (i, q)) :
    q ≤ s.L ∧ ∀ k, s.cur ≤ k → k < q → ∃ b, s.streamRead k = .ok b := by
  obtain ⟨rfl, hread⟩ := decodeOne_reads h
  have hpos := (instr_length_bounds i).1
  obtain ⟨b, hb⟩ := hread (i.length - 1) (by omega)
  have hlast := (streamRead_eq_ok.mp hb).1
  exact ⟨by omega, fun k hlo hhi => ⟨_, streamRead_lt (show k < s.L by omega)⟩⟩

/-- Settles O54: a commit passes the bytes of the instruction fetched, and a stop passes none. -/
theorem cursorStaysInTheStream : Obligations.CursorStaysInTheStream := by
  refine ⟨applyReset_cur, fun s t hle h => ?_⟩
  have stays : t.L = s.L → t.cur = s.cur →
      t.cur ≤ t.L ∧ s.cur ≤ t.cur ∧ ∀ k, s.cur ≤ k → k < t.cur → ∃ b, s.streamRead k = .ok b :=
    fun hL hcur => ⟨by omega, by omega, fun k _ _ => by omega⟩
  cases step_outcome h with
  | @committed i r hf hx =>
    have hcur : (commit r s).cur = s.cur + i.length := by rw [commit_cur, (record_of_exec hx).2.1]
    obtain ⟨hend, hread⟩ := fetch_in_stream hf
    rw [hcur]
    exact ⟨hend, Nat.le_add_right _ _, hread⟩
  | exhausted | unsupported | truncated | unhandled | pastEnd => exact stays rfl rfl

/-- Settles O55: the cursor stays at or below the stream's length, which no step writes. -/
theorem cursorFitsTheBuild : Obligations.CursorFitsTheBuild := by
  intro s t hfits hle h
  have hL : t.L = s.L := (step_keeps_stream h).2.1
  have hcur := (cursorStaysInTheStream.2 s t hle h).1
  have hfits' : t.fitsBuild := by rwa [State.fitsBuild, hL]
  exact ⟨hfits', Nat.lt_of_le_of_lt hcur hfits'⟩

/-! ## The outputs -/

/-- Settles O48: a commit appends the record and its rendering and goes on scanning; a stop appends nothing. -/
theorem outputsAppendOneLinePerRecord : Obligations.OutputsAppendOneLinePerRecord := by
  intro s t h
  refine ⟨?_, ?_, applyReset_out s, applyReset_recs s⟩
  · intro hlines
    cases step_outcome h with
    | committed => simp [hlines]
    | exhausted | unsupported | truncated | unhandled | pastEnd => exact hlines
  · cases step_outcome h with
    | committed => exact .inl ⟨rfl, _, rfl, rfl⟩
    | exhausted | unsupported | truncated | unhandled | pastEnd => exact .inr ⟨nofun, rfl, rfl⟩

/-! ## Priority (R144) -/

/-- The class of a segment form's lead byte is that form. -/
theorem classify_of_segment_lead {v : OpcodeVariant} {b : Byte}
    (h : v = .RegMemToSeg ∧ b = 0x8E ∨ v = .SegToRegMem ∧ b = 0x8C) :
    classify b = some v ∧ isSegmentForm v = true := by
  rcases h with ⟨rfl, rfl⟩ | ⟨rfl, rfl⟩ <;> decide

/-- The FSM state after a step whose lead byte is `op`, by the byte's class. -/
def ClassPriority (op : Byte) (st : Fsm) : Prop :=
  (classify op = none → st = .terminated (.error .unsupportedOpcode)) ∧
  (∀ v, classify op = some v → isSegmentForm v = true → st = .terminated .unhandledVariant) ∧
  (∀ v, classify op = some v → isSegmentForm v = false →
    st = .scanning ∨ st = .terminated (.error .truncatedInstruction))

theorem classPriority_of_unclassified {op : Byte} (hnone : classify op = none) :
    ClassPriority op (.terminated (.error .unsupportedOpcode)) :=
  ⟨fun _ => rfl, fun v hv => by simp [hnone] at hv, fun v hv => by simp [hnone] at hv⟩

theorem classPriority_of_decoded {op : Byte} {v : OpcodeVariant} {st : Fsm} (hc : classify op = some v)
    (hv : isSegmentForm v = false) (hst : st = .scanning ∨ st = .terminated (.error .truncatedInstruction)) :
    ClassPriority op st :=
  ⟨fun hnone => by simp [hc] at hnone, fun v' hv' hseg => by simp_all, fun _ _ _ => hst⟩

theorem classPriority_of_segment {op : Byte} {v : OpcodeVariant} (hc : classify op = some v)
    (hv : isSegmentForm v = true) : ClassPriority op (.terminated .unhandledVariant) :=
  ⟨fun hnone => by simp [hc] at hnone, fun _ _ _ => rfl, fun v' hv' hseg => by simp_all⟩

/-- Settles O43: each outcome has its own cursor and class of the lead byte. -/
theorem terminationPriority : Obligations.TerminationPriority := by
  intro s t hle h
  have lead : ClassPriority (s.B.read s.cur) t.st → ∀ op, s.streamRead s.cur = .ok op → ClassPriority op t.st :=
    fun hprio op hop => (streamRead_eq_ok.mp hop).2 ▸ hprio
  cases step_outcome h with
  | committed hf hx =>
    have hseg := (record_of_exec hx).2.2.2
    exact ⟨fun hend => absurd hend (cur_lt_of_fetch hf).ne,
      lead (classPriority_of_decoded (classify_of_fetch hf) hseg (.inl rfl)), nofun⟩
  | exhausted hend => exact ⟨fun _ => rfl, fun op hop => absurd hend (streamRead_eq_ok.mp hop).1.ne, nofun⟩
  | unsupported hlt hnone =>
    exact ⟨fun hend => absurd hend hlt.ne, lead (classPriority_of_unclassified hnone), nofun⟩
  | truncated hlt hc hseg =>
    exact ⟨fun hend => absurd hend hlt.ne, lead (classPriority_of_decoded hc hseg (.inr rfl)), fun _ => ⟨_, rfl, rfl⟩⟩
  | unhandled hlt hlead =>
    obtain ⟨hc, hseg⟩ := classify_of_segment_lead hlead
    exact ⟨fun hend => absurd hend hlt.ne, lead (classPriority_of_segment hc hseg), nofun⟩
  | pastEnd hgt => omega

/-! ## The termination record (R140, D9) -/

/-- The codes are one to one with the reasons, and the errors have the codes 1 and 2 (R140). -/
theorem reason_code_iff (reason : Reason) :
    (reason = .exhausted ↔ reason.code = 0) ∧
    (reason = .error .unsupportedOpcode ↔ reason.code = 1) ∧
    (reason = .error .truncatedInstruction ↔ reason.code = 2) ∧
    (reason = .unhandledVariant ↔ reason.code = 3) ∧
    (reason.isError = true ↔ reason.code = 1 ∨ reason.code = 2) := by
  rcases reason with _ | _ | _ | _ <;> decide

/-- What the record of a step that ends a run holds, by the reason's code. -/
def RecordsByCode (s t : State) (info : TermInfo) : Prop :=
  t.st = .terminated info.reason ∧
  (info.reason.code = 0 → info.leadAt = s.L ∧ s.cur = s.L) ∧
  (info.reason.code ≠ 0 → info.leadAt = s.cur ∧ info.byte = some (s.B.read s.cur)) ∧
  (info.reason.code = 2 → ∃ n, info.need = some n ∧ s.L ≤ n) ∧
  (info.reason.code = 3 →
    (info.byte = some 0x8E ∧ t.notice = some .RegMemToSeg) ∨ (info.byte = some 0x8C ∧ t.notice = some .SegToRegMem))

theorem step_recordsByCode {s t : State} {info : TermInfo} (hle : s.cur ≤ s.L) (hnone : s.term = none)
    (h : step s = .next t) (hterm : t.term = some info) : RecordsByCode s t info := by
  cases step_outcome h with
  | committed => simp [hnone] at hterm
  | exhausted hend =>
    obtain rfl := Option.some.inj hterm
    exact ⟨rfl, fun _ => ⟨hend, hend⟩, fun hne => absurd rfl hne, nofun, nofun⟩
  | unsupported hlt =>
    obtain rfl := Option.some.inj hterm
    exact ⟨rfl, nofun, fun _ => ⟨rfl, leadByte_lt hlt⟩, nofun, nofun⟩
  | truncated hlt =>
    obtain rfl := Option.some.inj hterm
    exact ⟨rfl, nofun, fun _ => ⟨rfl, leadByte_lt hlt⟩, fun _ => ⟨s.L, rfl, le_rfl⟩, nofun⟩
  | unhandled hlt hlead =>
    obtain rfl := Option.some.inj hterm
    have hbyte := leadByte_lt hlt
    refine ⟨rfl, nofun, fun _ => ⟨rfl, hbyte⟩, nofun, fun _ => ?_⟩
    rcases hlead with ⟨rfl, hb⟩ | ⟨rfl, hb⟩ <;> rw [hb] at hbyte
    · exact .inl ⟨hbyte, rfl⟩
    · exact .inr ⟨hbyte, rfl⟩
  | pastEnd hgt => omega

/-- Settles O45: the codes by the reasons, the record by the outcome. -/
theorem reasonCodesAndRecords : Obligations.ReasonCodesAndRecords := by
  intro s t info hle hnone h hterm
  obtain ⟨h0, h1, h2, h3, herr⟩ := reason_code_iff info.reason
  obtain ⟨hst, hrecord⟩ := step_recordsByCode hle hnone h hterm
  exact ⟨hst, h0, h1, h2, h3, herr, hrecord⟩

/-! ## The notice (R14) -/

/-- A step on a segment form's lead byte raises UnhandledVariant of that form. -/
theorem step_on_segment_lead {s t : State} {v : OpcodeVariant} {b : Byte} (h : step s = .next t)
    (hop : s.streamRead s.cur = .ok b) (hlead : v = .RegMemToSeg ∧ b = 0x8E ∨ v = .SegToRegMem ∧ b = 0x8C) :
    t = raiseUnhandled v s := by
  obtain ⟨hlt, rfl⟩ := streamRead_eq_ok.mp hop
  obtain ⟨hc, hseg⟩ := classify_of_segment_lead hlead
  cases step_outcome h with
  | @committed i r hf hx hd =>
    obtain rfl : i.variant = v := by simpa [hc, eq_comm] using classify_of_fetch hf
    simp [(record_of_exec hx).2.2.2] at hseg
  | exhausted hend => omega
  | unsupported _ hnone => simp [hc] at hnone
  | @truncated v' _ hc' hseg' =>
    obtain rfl : v = v' := by simpa [hc] using hc'
    simp [hseg'] at hseg
  | @unhandled v' _ hlead' =>
    obtain rfl : v = v' := by simpa [hc] using (classify_of_segment_lead hlead').1
    rfl
  | pastEnd hgt => omega

/-- Settles O47: of the outcomes only UnhandledVariant writes the notice. -/
theorem noticeNamesTheSegmentForm : Obligations.NoticeNamesTheSegmentForm := by
  intro s t h
  refine ⟨fun hop => ?_, fun hop => ?_, fun hne hne' => ?_, applyReset_notice t, rfl⟩
  · rw [step_on_segment_lead h hop (.inl ⟨rfl, rfl⟩)]
    exact ⟨rfl, rfl, rfl⟩
  · rw [step_on_segment_lead h hop (.inr ⟨rfl, rfl⟩)]
    exact ⟨rfl, rfl, rfl⟩
  · cases step_outcome h with
    | unhandled hlt hlead =>
      rcases hlead with ⟨-, hb⟩ | ⟨-, hb⟩
      · exact absurd (hb ▸ streamRead_lt hlt) hne
      · exact absurd (hb ▸ streamRead_lt hlt) hne'
    | committed | exhausted | unsupported | truncated | pastEnd => rfl

/-! ## Lead bytes that end the run -/

/-- Settles O35: the two lead bytes raise UnhandledVariant, and no other outcome has that reason. -/
theorem segmentLeadByteStopsTheRun : Obligations.SegmentLeadByteStopsTheRun := by
  intro s op hst hop info
  obtain ⟨t, ht⟩ := step_total hst
  obtain ⟨hlt, hB⟩ := streamRead_eq_ok.mp hop
  have raised : ∀ v, raiseUnhandled v s =
      { s with st := .terminated .unhandledVariant, term := some info, notice := some v } := fun v => by
    simp [raiseUnhandled_eq_stopped hlt, Pseudocode.stopped, Pseudocode.reasonOf, Pseudocode.needOf, hB, info]
  refine ⟨?_, ?_, fun t h hreason => ?_⟩
  · rintro rfl
    rw [ht, step_on_segment_lead ht hop (.inl ⟨rfl, rfl⟩), raised]
  · rintro rfl
    rw [ht, step_on_segment_lead ht hop (.inr ⟨rfl, rfl⟩), raised]
  · cases step_outcome h with
    | unhandled _ hlead => exact hB ▸ hlead.imp And.right And.right
    | committed | exhausted | unsupported | truncated | pastEnd => exact nomatch hreason

/-- Settles O42: a lead byte without a class raises UnsupportedOpcode, and no other outcome has that reason. -/
theorem unsupportedLeadByteStopsTheRun : Obligations.UnsupportedLeadByteStopsTheRun := by
  intro s op hst hop
  obtain ⟨hlt, rfl⟩ := streamRead_eq_ok.mp hop
  refine ⟨fun hno => ?_, fun t h hreason => ?_⟩
  · have hf : s.fetchInstr = .error _ := decodeOne_of_classify_none hop (classify_eq_none_iff.mpr hno)
    rw [step_fetch_error hst hlt.ne hf, raise_eq_stopped hlt]; rfl
  · cases step_outcome h with
    | unsupported _ hnone => exact classify_eq_none_iff.mp hnone
    | committed | exhausted | truncated | unhandled | pastEnd => exact nomatch hreason

end Sys2Proof.Machine
end

section
/-! PROOFS. The invariant of a run (10_state.md sections 1 to 4): every step keeps it, and what it says of the records
and of a run that ended Exhausted. -/

namespace Sys2Proof.Machine

/-! ## Records one after another -/

section
variable {s t : State} {a b : Nat} {rs : List Decoded}

/-- The decoding of a stretch of bytes depends on the stream and the parameters alone. -/
theorem tiles_congr (hp : t.params = s.params) (hread : t.streamRead = s.streamRead) :
    Tiles t a rs b ↔ Tiles s a rs b := by
  induction rs generalizing a with
  | nil => rfl
  | cons r rs ih => simp only [Tiles, hp, hread, ih]

/-- The decoding of a stretch is extended by the record decoded at its end. -/
theorem tiles_append {r : Decoded} (h : Tiles s a rs b) (hat : r.leadAt = b)
    (hd : Pseudocode.decodeOne s.params s.streamRead b = .ok (r, b + r.len)) : Tiles s a (rs ++ [r]) (b + r.len) := by
  induction rs generalizing a with
  | nil =>
    obtain rfl : a = b := h
    exact ⟨hat, hd, rfl⟩
  | cons r' rs ih =>
    obtain ⟨hat', hd', hrest⟩ := h
    exact ⟨hat', hd', ih hrest⟩

theorem tiles_le (h : Tiles s a rs b) : a ≤ b := by
  induction rs generalizing a with
  | nil => exact h.le
  | cons r rs ih => exact (Nat.le_add_right a r.len).trans (ih h.2.2)

/-- Every record of a stretch was decoded at its own offset, and ends in the stretch. -/
theorem tiles_mem {r : Decoded} (h : Tiles s a rs b) (hr : r ∈ rs) :
    Pseudocode.decodeOne s.params s.streamRead r.leadAt = .ok (r, r.leadAt + r.len) ∧ r.leadAt + r.len ≤ b := by
  induction rs generalizing a with
  | nil => exact absurd hr List.not_mem_nil
  | cons r' rs ih =>
    obtain ⟨rfl, hd, hrest⟩ := h
    rcases List.mem_cons.mp hr with rfl | hmem
    · exact ⟨hd, tiles_le hrest⟩
    · exact ih hrest hmem

/-- The bytes that the records of a stretch span, one after another, are the bytes of the stretch. -/
theorem tiles_bytes (h : Tiles s a rs b) :
    rs.flatMap (fun r => (List.range r.len).map fun k => s.B.read (r.leadAt + k)) =
      (List.range' a (b - a)).map s.B.read := by
  induction rs generalizing a with
  | nil =>
    obtain rfl : a = b := h
    simp
  | cons r rs ih =>
    obtain ⟨rfl, -, hrest⟩ := h
    have hle := tiles_le hrest
    have hspan : (List.range' r.leadAt r.len).map s.B.read =
        (List.range r.len).map fun k => s.B.read (r.leadAt + k) := by
      rw [List.range'_eq_map_range, List.map_map]; rfl
    rw [List.flatMap_cons, ih hrest, show b - r.leadAt = r.len + (b - (r.leadAt + r.len)) from by omega,
      ← List.range'_append_1, List.map_append, hspan]

end

/-! ## Every step keeps the invariant -/

/-- The bytes decoded after a step: a commit extends it by its record, a stop leaves it. -/
theorem step_keeps_tiles {s t : State} (hinv : Tiles s 0 s.recs s.cur) (h : step s = .next t) :
    Tiles t 0 t.recs t.cur := by
  obtain ⟨hB, hL, hp⟩ := step_keeps_stream h
  rw [tiles_congr hp (streamRead_congr hB hL)]
  cases step_outcome h with
  | committed hf hx hd => exact tiles_append hinv (record_of_exec hx).1 hd
  | exhausted | unsupported | truncated | unhandled | pastEnd => exact hinv

/-- The FSM, the termination record and the notice agree after a step from a scanning state where they do. -/
theorem step_keeps_stopWf {s t : State} (hle : s.cur ≤ s.L) (hterm : s.term = none) (hnotice : s.notice = none)
    (h : step s = .next t) : t.stopWf := by
  cases step_outcome h with
  | committed => exact (stopWf_of_scanning rfl).mpr ⟨hterm, hnotice⟩
  | exhausted hend => exact ⟨_, rfl, rfl, rfl, hend, leadByte_ge hend.ge, rfl, hnotice⟩
  | unsupported hlt hnone => exact ⟨_, rfl, rfl, rfl, hlt, leadByte_lt hlt, rfl, hnotice, hnone⟩
  | truncated hlt => exact ⟨_, rfl, rfl, rfl, hlt, leadByte_lt hlt, rfl, hnotice⟩
  | @unhandled v hlt hlead =>
    have hform : v = .RegMemToSeg ∨ v = .SegToRegMem := hlead.imp And.left And.left
    exact ⟨_, rfl, rfl, rfl, hlt, leadByte_lt hlt, rfl, (classify_of_segment_lead hlead).1.symm,
      hform.imp (congrArg some) (congrArg some)⟩
  | pastEnd hgt => omega

/-- Settles O53: each part of the invariant is kept by every outcome. -/
theorem invariantIsKeptByEveryStep : Obligations.InvariantIsKeptByEveryStep := by
  intro s t hinv h
  obtain ⟨hB, hL, -⟩ := step_keeps_stream h
  obtain ⟨hterm, hnotice⟩ := (stopWf_of_scanning (step_cases h).1).mp hinv.stop
  exact {
    stream := by rw [State.streamWf, hB, hL]; exact hinv.stream
    cursor := (cursorStaysInTheStream.2 s t hinv.cursor h).1
    lines := (outputsAppendOneLinePerRecord s t h).1 hinv.lines
    tiled := step_keeps_tiles hinv.tiled h
    stop := step_keeps_stopWf hinv.cursor hterm hnotice h }

/-! ## The records (R17, R18, R46) -/

/-- A record that `DecodeOne` gives is the one that the meaning of the instruction fetched commits. -/
theorem fetch_of_pseudocode_decodeOne {s : State} {r : Decoded} {q : Nat}
    (h : Pseudocode.decodeOne s.params s.streamRead s.cur = .ok (r, q)) :
    ∃ i, s.fetchInstr = .ok (i, q) ∧ exec i s = .next (commit r s) := by
  rcases hf : s.fetchInstr with e | ⟨i, q'⟩
  · simp [pseudocode_decodeOne_of_error s.params hf] at h
  · have hq' := (decodeOne_reads hf).1
    rcases pseudocode_decodeOne_of_fetch hf with ⟨r', hd, hx⟩ | ⟨v, hd, -⟩
    · obtain ⟨rfl, rfl⟩ : r' = r ∧ s.cur + r'.len = q := by simpa [h, eq_comm] using hd
      rw [← (record_of_exec hx).2.1] at hq'
      exact ⟨i, by rw [hq'], hx⟩
    · simp [h] at hd

theorem direct_inRange (a : Word) : (Operand.memory (.direct a.toNat)).inRange := Nat.le_of_lt_succ a.isLt

theorem rmOperand_inRange (f : RmForm) (w : Bool) : (rmOperand f w).inRange := by
  cases f with
  | register i => exact trivial
  | baseOnly b => exact trivial
  | direct a => exact direct_inRange a
  | disp8 b d =>
    have := byte_toInt_bounds d
    rw [rmOperand, sext16_eq_toInt]; exact ⟨by omega, by omega⟩
  | disp16 b d => rw [rmOperand, s16_eq_toInt]; exact word_toInt_bounds d

theorem immOperand_inRange (imm : ImmData) : (immOperand imm).inRange := by
  cases imm with
  | byte b => rw [immOperand, sext16_eq_toInt]; exact byte_toInt_bounds b
  | word v => rw [immOperand, s16_eq_toInt]; exact word_toInt_bounds v

/-- A record carries exactly the fields of its variant (R46). -/
structure CarriesItsFields (r : Decoded) : Prop where
  d : r.fields.d.isSome = true ↔ r.variant = .RegMemToFromReg
  w : r.fields.w.isSome = true
  mod : r.fields.mod.isSome = true ↔ r.variant = .RegMemToFromReg ∨ r.variant = .ImmToRegMem
  rm : r.fields.rm.isSome = true ↔ r.variant = .RegMemToFromReg ∨ r.variant = .ImmToRegMem
  reg : r.fields.reg.isSome = true ↔
    r.variant = .RegMemToFromReg ∨ r.variant = .ImmToRegMem ∨ r.variant = .ImmToReg

/-- The record that a meaning commits has operands in range and its variant's fields. -/
theorem record_inRange {i : Instr} {s : State} {r : Decoded} (h : exec i s = .next (commit r s)) :
    r.dst.inRange ∧ r.src.inRange ∧ CarriesItsFields r := by
  cases i with
  | regMemToFromReg d w reg rm =>
    obtain rfl := exec_commit_unique rfl h
    refine and_assoc.mp ⟨?_, by constructor <;> simp⟩
    cases d
    · exact ⟨rmOperand_inRange rm w, trivial⟩
    · exact ⟨trivial, rmOperand_inRange rm w⟩
  | immToRegMem reg rm imm =>
    obtain rfl := exec_commit_unique rfl h
    exact ⟨rmOperand_inRange rm _, immOperand_inRange imm, by constructor <;> simp⟩
  | immToReg reg imm =>
    obtain rfl := exec_commit_unique rfl h
    exact ⟨trivial, immOperand_inRange imm, by constructor <;> simp⟩
  | memToAcc w addr =>
    obtain rfl := exec_commit_unique rfl h
    exact ⟨trivial, direct_inRange addr, by constructor <;> simp⟩
  | accToMem w addr =>
    obtain rfl := exec_commit_unique rfl h
    exact ⟨direct_inRange addr, trivial, by constructor <;> simp⟩
  | regMemToSeg => exact absurd (exec_next_unique rfl h) raiseUnhandled_ne_commit
  | segToRegMem => exact absurd (exec_next_unique rfl h) raiseUnhandled_ne_commit

/-- Settles O56: every record was committed by the meaning of the instruction at its own offset. -/
theorem recordsAreInRange : Obligations.RecordsAreInRange := by
  intro s hinv r hr
  obtain ⟨hd, hend⟩ := tiles_mem hinv.tiled hr
  obtain ⟨i, hf, hx⟩ := fetch_of_pseudocode_decodeOne (s := { s with cur := r.leadAt }) hd
  obtain ⟨-, hlen, hvar, hseg⟩ := record_of_exec hx
  obtain ⟨hdst, hsrc, hfields⟩ := record_inRange hx
  have hmin := instr_length_of_committed hseg
  have hmax : i.length ≤ 6 := (instr_length_bounds i).2
  exact ⟨hlen ▸ hmin, hlen ▸ hmax, hend, hdst, hsrc, hvar ▸ hseg, hvar ▸ classify_of_fetch hf, hfields.d, hfields.w,
    hfields.mod, hfields.rm, hfields.reg⟩

/-! ## The clean end (R68) -/

/-- Settles O57: the records' bytes are those before the cursor, and the cursor of a clean end is the stream's end. -/
theorem exhaustedRunDecodesEveryByte : Obligations.ExhaustedRunDecodesEveryByte := by
  intro s hinv hst
  have hcur : s.cur = s.L := by
    have hstop := hinv.stop
    rw [State.stopWf, hst] at hstop
    obtain ⟨info, -, -, -, hend, -⟩ := hstop
    exact hend
  refine ⟨by rw [hinv.lines, List.length_map], ?_⟩
  rw [tiles_bytes hinv.tiled, hcur, Nat.sub_zero, List.range_eq_range']

end Sys2Proof.Machine
end

section
/-! PROOFS. Runs (40_decode_loop.md R60, R64, R66, 60_exceptions.md R146): the step against the spec's pseudocode, the
end of every run, and that a step depends on neither the instruction's place nor the history (20_memory.md R33,
30_encoding.md R51). -/

namespace Sys2Proof.Machine

/-- Settles O59: at the end of the stream both are the clean end, and before it both follow `DecodeOne`. -/
theorem stepIsTheSpecsPseudocode : Obligations.StepIsTheSpecsPseudocode := by
  intro s hst hle
  unfold Pseudocode.step
  split
  · next hc => rw [step_end hst hc, endOfStream_eq_exhausted hc]
  · next hc =>
    rcases step_before_end hst (Nat.lt_of_le_of_ne hle hc) with ⟨r, hd, hs⟩ | ⟨e, hd, hs⟩ <;> rw [hs, hd]

/-! ## Terminated states -/

theorem step_of_terminated {s : State} {reason : Reason} (hst : s.st = .terminated reason) (t : State) :
    step s ≠ .next t := fun h => nomatch hst.symm.trans (step_cases h).1

/-- A terminated state is the only one that a run from it reaches, and by no step. -/
theorem run_of_terminated {s t : State} {reason : Reason} (hst : s.st = .terminated reason) {k : Nat}
    (h : run k s = .next t) : k = 0 ∧ t = s := by
  cases k with
  | zero => exact ⟨rfl, (run_zero_eq_next.mp h).symm⟩
  | succ k =>
    obtain ⟨u, hu, -⟩ := run_succ_eq_next.mp h
    exact absurd hu (step_of_terminated hst u)

/-- Settles O46: a terminated state has no step, and reset over a supplied stream forgets all that stood before. -/
theorem terminatedIsLeftOnlyByReset : Obligations.TerminatedIsLeftOnlyByReset := fun _ _ hst =>
  ⟨fun _ _ h => (run_of_terminated hst h).2, step_of_terminated hst, fun bytes params =>
    ⟨applyReset_congr (s := State.reset.supply bytes params) rfl rfl rfl, applyReset_st _⟩⟩

/-! ## Every run ends (R64) -/

/-- A step that goes on scanning passes an instruction of a decoded variant, which has at least two bytes (R48). -/
theorem step_progress {s t : State} (h : step s = .next t) (hst : t.st = .scanning) : s.cur + 2 ≤ t.cur := by
  cases step_outcome h with
  | @committed i r hf hx hd =>
    obtain ⟨-, hlen, -, hseg⟩ := record_of_exec hx
    have hmin := instr_length_of_committed hseg
    rw [commit_cur, hlen]
    omega
  | exhausted | unsupported | truncated | unhandled | pastEnd => exact nomatch hst

/-- After a step the FSM is scanning or terminated. -/
theorem step_st {s t : State} (h : step s = .next t) : t.st = .scanning ∨ ∃ reason, t.st = .terminated reason := by
  cases step_outcome h with
  | committed => exact .inl rfl
  | exhausted | unsupported | truncated | unhandled | pastEnd => exact .inr ⟨_, rfl⟩

/-- A run that reaches `Terminated` within `n` steps with the cursor in the stream, and then has no next state. -/
def EndsWithin (n : Nat) (s : State) : Prop :=
  ∃ k t reason, k ≤ n ∧ run k s = .next t ∧ t.st = .terminated reason ∧ t.cur ≤ t.L ∧
    ∀ j u, k < j → run j s ≠ .next u

theorem endsWithin_of_terminated {s : State} {reason : Reason} (hst : s.st = .terminated reason) (hle : s.cur ≤ s.L) :
    EndsWithin 0 s :=
  ⟨0, s, reason, le_rfl, rfl, hst, hle, fun _ _ hj h => hj.ne' (run_of_terminated hst h).1⟩

/-- A run ends one step later than the run from its next state. -/
theorem endsWithin_succ {n : Nat} {s t : State} (h : step s = .next t) (ht : EndsWithin n t) :
    EndsWithin (n + 1) s := by
  obtain ⟨k, u, reason, hk, hrun, hst, hle, hend⟩ := ht
  refine ⟨k + 1, u, reason, Nat.succ_le_succ hk, run_succ_eq_next.mpr ⟨t, h, hrun⟩, hst, hle, fun j v hj hv => ?_⟩
  obtain ⟨j, rfl⟩ := Nat.exists_eq_add_one_of_ne_zero (Nat.ne_of_gt (Nat.zero_lt_of_lt hj))
  obtain ⟨t', ht', hv'⟩ := run_succ_eq_next.mp hv
  obtain rfl : t = t' := by simpa [h] using ht'
  exact hend j v (Nat.lt_of_succ_lt_succ hj) hv'

theorem EndsWithin.mono {m n : Nat} {s : State} (hmn : m ≤ n) : EndsWithin m s → EndsWithin n s :=
  fun ⟨k, t, reason, hk, hrest⟩ => ⟨k, t, reason, hk.trans hmn, hrest⟩

/-- Each step that goes on scanning uses up two bytes, and one more step ends the run. -/
theorem endsWithin_of_scanning {n : Nat} {s : State} (hst : s.st = .scanning) (hle : s.cur ≤ s.L)
    (hn : (s.L - s.cur) / 2 ≤ n) : EndsWithin (n + 1) s := by
  induction n generalizing s with
  | zero =>
    obtain ⟨t, ht⟩ := step_total hst
    obtain ⟨hcur, -⟩ := cursorStaysInTheStream.2 s t hle ht
    have hL := (step_keeps_stream ht).2.1
    rcases step_st ht with hscan | ⟨reason, hterm⟩
    · have := step_progress ht hscan
      omega
    · exact endsWithin_succ ht (endsWithin_of_terminated hterm hcur)
  | succ n ih =>
    obtain ⟨t, ht⟩ := step_total hst
    obtain ⟨hcur, -⟩ := cursorStaysInTheStream.2 s t hle ht
    have hL := (step_keeps_stream ht).2.1
    rcases step_st ht with hscan | ⟨reason, hterm⟩
    · have := step_progress ht hscan
      exact endsWithin_succ ht (ih hscan hcur (by omega))
    · exact endsWithin_succ ht ((endsWithin_of_terminated hterm hcur).mono (Nat.zero_le _))

/-- Settles O58: progress by two bytes a step bounds the run. -/
theorem everyRunTerminates : Obligations.EveryRunTerminates :=
  ⟨fun _ _ => step_progress, fun _ hst hle => endsWithin_of_scanning hst hle le_rfl⟩

/-! ## Place and history (R33, R51) -/

/-- The same bytes are left before two states: as many from the cursor to the end, and the same ones. -/
structure SameRest (s u : State) : Prop where
  cursor : s.cur ≤ s.L
  length : u.L = u.cur + (s.L - s.cur)
  bytes : ∀ k, s.cur + k < s.L → u.streamRead (u.cur + k) = s.streamRead (s.cur + k)

theorem SameRest.symm {s u : State} (h : SameRest s u) : SameRest u s where
  cursor := by have := h.length; omega
  length := by have := h.length; have := h.cursor; omega
  bytes k hk := (h.bytes k (by have := h.length; omega)).symm

theorem SameRest.inside {s u : State} (h : SameRest s u) (hlt : s.cur < s.L) : u.cur < u.L := by
  have := h.length
  omega

theorem SameRest.lead {s u : State} (h : SameRest s u) (hlt : s.cur < s.L) : u.B.read u.cur = s.B.read s.cur := by
  have hread := h.bytes 0 hlt
  rw [Nat.add_zero, Nat.add_zero, streamRead_lt hlt] at hread
  exact (streamRead_eq_ok.mp hread).2

theorem SameRest.leadByte {s u : State} (h : SameRest s u) : u.leadByte = s.leadByte := by
  rcases Nat.lt_or_ge s.cur s.L with hlt | hge
  · rw [leadByte_lt hlt, leadByte_lt (h.inside hlt), h.lead hlt]
  · have := h.length
    rw [leadByte_ge hge, leadByte_ge (by omega)]

/-- The instruction decoded before one state is decoded before the other, since its encoding stands there too. -/
theorem SameRest.fetch {s u : State} {i : Instr} {q : Nat} (h : SameRest s u) (hf : s.fetchInstr = .ok (i, q)) :
    u.fetchInstr = .ok (i, u.cur + i.length) := by
  obtain ⟨hw, hat⟩ := holdsAt_encode_of_decodeOne hf
  have hat' : HoldsAt u.streamRead u.cur (encode i) := fun k hk =>
    (h.bytes k (streamRead_eq_ok.mp (hat k hk)).1).trans (hat k hk)
  rw [← encode_length hw]
  exact decodeOne_of_holdsAt_encode hw hat'

/-- A truncation before one state is one before the other: no instruction stands there, and the lead byte has a class. -/
theorem SameRest.fetch_truncated {s u : State} {v : OpcodeVariant} (h : SameRest s u) (hlt : s.cur < s.L)
    (hc : classify (s.B.read s.cur) = some v) (hf : s.fetchInstr = .error (.truncated s.L)) :
    u.fetchInstr = .error (.truncated u.L) := by
  rcases hu : u.fetchInstr with e | ⟨i, q⟩
  · rcases fetch_error_cases (h.inside hlt) hu with ⟨hnone, -⟩ | ⟨_, -, -, rfl⟩
    · simp [h.lead hlt, hc] at hnone
    · rfl
  · simp [h.symm.fetch hu] at hf

/-- What a meaning commits from another state with the same parameters is the same record at that state's cursor. -/
theorem exec_moved {i : Instr} {s u : State} {r : Decoded} (hp : u.params = s.params)
    (h : exec i s = .next (commit r s)) : exec i u = .next (commit { r with leadAt := u.cur } u) := by
  cases i with
  | regMemToFromReg | immToRegMem | immToReg => obtain rfl := exec_commit_unique rfl h; rfl
  | memToAcc | accToMem => obtain rfl := exec_commit_unique rfl h; rw [← hp]; rfl
  | regMemToSeg => exact absurd (exec_next_unique rfl h) raiseUnhandled_ne_commit
  | segToRegMem => exact absurd (exec_next_unique rfl h) raiseUnhandled_ne_commit

/-- The states `t` and `v` that steps from `s` and `u` leave are one outcome, moved from the one cursor to the other. -/
def MovedOutcome (s u t v : State) : Prop :=
  v.st = t.st ∧ v.cur + s.cur = t.cur + u.cur ∧
  (∀ r, t.recs = s.recs ++ [r] → v.recs = u.recs ++ [{ r with leadAt := u.cur }] ∧ v.out = u.out ++ [render r]) ∧
  (t.recs = s.recs → v.recs = u.recs ∧ v.out = u.out) ∧
  (t.st = .terminated .unhandledVariant → t.notice ≠ none ∧ v.notice = t.notice) ∧
  (t.st ≠ .terminated .unhandledVariant → t.notice = s.notice ∧ v.notice = u.notice) ∧
  (t.st = .scanning → t.term = s.term ∧ v.term = u.term) ∧
  (t.st ≠ .scanning → ∀ info, t.term = some info → v.term = some
    { info with leadAt := u.cur, need := info.need.map (fun n => n - s.cur + u.cur) })

section
variable {s u : State}

theorem movedOutcome_commit (r : Decoded) :
    MovedOutcome s u (commit r s) (commit { r with leadAt := u.cur } u) := by
  refine ⟨rfl, ?_, fun r' hr' => ?_, fun hr => ?_, nofun, fun _ => ⟨rfl, rfl⟩, fun _ => ⟨rfl, rfl⟩,
    fun hne => absurd rfl hne⟩
  · simp only [commit_cur]; omega
  · obtain rfl : r = r' := by simpa using hr'
    exact ⟨rfl, rfl⟩
  · simp at hr

theorem movedOutcome_terminate (h : SameRest s u) (reason : Reason) (hne : reason ≠ .unhandledVariant)
    {need need' : Option Nat} (hneed : need' = need.map fun n => n - s.cur + u.cur) :
    MovedOutcome s u (terminate reason need s) (terminate reason need' u) := by
  refine ⟨rfl, Nat.add_comm _ _, fun r hr => ?_, fun _ => ⟨rfl, rfl⟩, fun heq => ?_, fun _ => ⟨rfl, rfl⟩, nofun,
    fun _ info hinfo => ?_⟩
  · simp at hr
  · exact absurd (Fsm.terminated.inj heq) hne
  · obtain rfl := Option.some.inj hinfo
    rw [terminate_term, h.leadByte, hneed]

theorem movedOutcome_raiseUnhandled (h : SameRest s u) (v : OpcodeVariant) :
    MovedOutcome s u (raiseUnhandled v s) (raiseUnhandled v u) := by
  refine ⟨rfl, Nat.add_comm _ _, fun r hr => ?_, fun _ => ⟨rfl, rfl⟩, fun _ => ⟨nofun, rfl⟩, fun hne => absurd rfl hne,
    nofun, fun _ info hinfo => ?_⟩
  · simp at hr
  · obtain rfl := Option.some.inj hinfo
    rw [raiseUnhandled_term, h.leadByte]; rfl

end

/-- Settles O60: each outcome of the one step has its counterpart for the other, from the bytes that both have left. -/
theorem decodingIgnoresPlaceAndHistory : Obligations.DecodingIgnoresPlaceAndHistory := by
  intro s u t hst hust hp hle hL hbytes h
  have hsame : SameRest s u := ⟨hle, hL, hbytes⟩
  change ∃ v, step u = .next v ∧ MovedOutcome s u t v
  cases step_outcome h with
  | @committed i r hf hx hd =>
    have hf' := hsame.fetch hf
    exact ⟨_, (step_fetch_ok hust (cur_lt_of_fetch hf').ne hf').trans (exec_moved hp hx), movedOutcome_commit r⟩
  | exhausted hend => exact ⟨_, step_end hust (by omega), movedOutcome_terminate hsame .exhausted nofun rfl⟩
  | unsupported hlt hnone =>
    have hult := hsame.inside hlt
    have hf' : u.fetchInstr = .error _ :=
      decodeOne_of_classify_none (streamRead_lt hult) (by rw [hsame.lead hlt, hnone])
    exact ⟨_, step_fetch_error hust hult.ne hf', movedOutcome_terminate hsame (.error .unsupportedOpcode) nofun rfl⟩
  | truncated hlt hc _ hf =>
    have hf' := hsame.fetch_truncated hlt hc hf
    have hneed : some u.L = (some s.L).map fun n => n - s.cur + u.cur := by rw [Option.map_some, hL, Nat.add_comm]
    exact ⟨_, step_fetch_error hust (hsame.inside hlt).ne hf',
      movedOutcome_terminate hsame (.error .truncatedInstruction) nofun hneed⟩
  | @unhandled v hlt hlead =>
    obtain ⟨w, hw⟩ := step_total hust
    rw [← hsame.lead hlt] at hlead
    obtain rfl := step_on_segment_lead hw (streamRead_lt (hsame.inside hlt)) hlead
    exact ⟨_, hw, movedOutcome_raiseUnhandled hsame v⟩
  | pastEnd hgt => omega

end Sys2Proof.Machine
end

section
/-! PROOFS. The stream that the caller supplies (70_reset_and_hazards.md R162), the text of numbers and Memory operands
(41_operands.md R80 to R82), and the meanings, each from every state (42_mov_rm_reg.md to 46_mov_seg.md). -/

namespace Sys2Proof.Machine

/-! ## The supplied stream -/

/-- Settles O13: the bytes written at offset 0 read back one by one, and past the last one the read raises. -/
theorem suppliedStreamReadsBack : Obligations.SuppliedStreamReadsBack := by
  refine fun s bytes params => ⟨supply_streamWf s bytes params, rfl, rfl, fun k => ?_⟩
  rcases Nat.lt_or_ge k bytes.length with hlt | hge
  · have hread := Memory.read_writeBytes (m := []) (a := 0) rfl hlt
    rw [Nat.zero_add] at hread
    rw [streamRead_lt hlt, listReader_lt hlt, supply_B, hread]
  · rw [streamRead_ge hge, listReader_ge hge]

/-! ## Decimal text -/

/-- The text of a natural is its decimal digits. -/
theorem decNat_spelling (n : Nat) : ∃ ds, IsDecimal ds ∧ decValue ds = n ∧ decNat n = String.ofList ds := by
  obtain ⟨hdec, hval, -⟩ := decDigits_spec (Nat.lt_succ_self n)
  exact ⟨_, hdec, hval, rfl⟩

theorem dec_of_nonneg {n : Int} (h : 0 ≤ n) : dec n = decNat n.natAbs := if_neg (Int.not_lt.mpr h)

theorem dec_of_neg {n : Int} (h : n < 0) : dec n = "-" ++ decNat n.natAbs := if_pos h

/-- Settles O20: the digits are those of the magnitude, and the sign stands before them. -/
theorem decimalSpelling : Obligations.DecimalSpelling := by
  intro n
  obtain ⟨ds, hdec, hval, htext⟩ := decNat_spelling n.natAbs
  refine ⟨ds, hdec, hval, ?_⟩
  split
  · next hneg => simp [dec_of_neg hneg, htext]
  · next hnonneg => simp [dec_of_nonneg (Int.not_lt.mp hnonneg), htext]

/-- The suffix of a positive displacement, and of a negative one: the sign apart, then the magnitude's digits (R82). -/
theorem dispSuffix_of_pos {d : Int} (h : 0 < d) : dispSuffix d = " + " ++ decNat d.natAbs := by
  rw [dispSuffix, if_neg h.ne', if_pos h, dec_of_nonneg h.le]

theorem dispSuffix_of_neg {d : Int} (h : d < 0) : dispSuffix d = " - " ++ decNat d.natAbs := by
  rw [dispSuffix, if_neg h.ne, if_neg (by omega), dec_of_nonneg (by omega), Int.natAbs_neg]

/-- Settles O21: by the three forms of the operand, and the displacement's sign. -/
theorem memoryTextShowsSignAndMagnitude : Obligations.MemoryTextShowsSignAndMagnitude := by
  refine ⟨fun _ => rfl, fun a => ?_, fun b d => ⟨fun hzero => hzero ▸ memText_baseDisp_zero b, fun hpos => ?_,
    fun hneg => ?_⟩⟩
  · obtain ⟨ds, hdec, hval, htext⟩ := decNat_spelling a
    exact ⟨ds, hdec, hval, by rw [memText, dec_of_nonneg (Int.natCast_nonneg a), Int.natAbs_natCast, htext]⟩
  · obtain ⟨ds, hdec, hval, htext⟩ := decNat_spelling d.natAbs
    refine ⟨ds, hdec, by omega, ?_⟩
    rw [memText, dispSuffix_of_pos hpos, htext]
    simp only [String.append_assoc]
  · obtain ⟨ds, hdec, hval, htext⟩ := decNat_spelling d.natAbs
    refine ⟨ds, hdec, by omega, ?_⟩
    rw [memText, dispSuffix_of_neg hneg, htext]
    simp only [String.append_assoc]

/-! ## The meanings -/

/-- Settles O10: a meaning is a commit or the raising of UnhandledVariant, and neither writes the stream. -/
theorem meaningsFrame : Obligations.MeaningsFrame := by
  intro i s t h
  rcases exec_cases i s with ⟨r, hx, -, -, -, hseg⟩ | ⟨rfl, hx⟩ | ⟨rfl, hx⟩
  · obtain rfl := exec_next_unique hx h
    exact ⟨rfl, rfl, rfl, fun _ => ⟨rfl, rfl⟩, fun _ => ⟨rfl, rfl, ⟨r, rfl⟩, _, rfl⟩,
      fun hseg' => by simp [hseg] at hseg'⟩
  · obtain rfl := exec_next_unique hx h
    exact ⟨rfl, rfl, rfl, fun _ => ⟨rfl, rfl⟩, nofun, fun _ => ⟨rfl, rfl, rfl⟩⟩
  · obtain rfl := exec_next_unique hx h
    exact ⟨rfl, rfl, rfl, fun _ => ⟨rfl, rfl⟩, nofun, fun _ => ⟨rfl, rfl, rfl⟩⟩

/-- Settles O25: the meaning is one commit, and a well-formed r/m form has as many bytes as its fields call for. -/
theorem regMemToFromRegCommits : Obligations.RegMemToFromRegCommits := by
  intro d w reg rm s hw
  rw [rmForm_bytes_length hw]
  rfl

/-- Settles O26: the meaning is one commit, whose immediate is the two's-complement value of its data. -/
theorem immToRegMemCommits : Obligations.ImmToRegMemCommits := by
  intro reg rm imm s hw
  rw [rmForm_bytes_length hw, immData_bytes_length]
  cases imm with
  | byte b => simp only [← sext16_eq_toInt, ← operandText_isPlace (rmOperand_isPlace rm _) true]; rfl
  | word v => simp only [← s16_eq_toInt, ← operandText_isPlace (rmOperand_isPlace rm _) true]; rfl

/-- Settles O27: the meaning is one commit, whose immediate is the two's-complement value of its data. -/
theorem immToRegCommits : Obligations.ImmToRegCommits := by
  intro reg imm s
  rw [immData_bytes_length]
  cases imm with
  | byte b => simp only [← sext16_eq_toInt]; rfl
  | word v => simp only [← s16_eq_toInt]; rfl

/-- The accumulator's name (R122). -/
theorem accName_eq {params : Config.Params} {w : Bool} {acc : RegName} (hoff : params.accHonorsW = false → acc = .ax)
    (hon : params.accHonorsW = true → acc = if w then .ax else .al) : accName params w = acc := by
  cases hp : params.accHonorsW
  · simp [accName, hp, hoff hp]
  · rw [accName, if_pos hp, hon hp]
    cases w <;> rfl

/-- The lines of the accumulator forms, taken apart at the operands (R85). -/
theorem loadLine_eq (acc addr : String) :
    "mov " ++ acc ++ ", [" ++ addr ++ "]" = "mov " ++ acc ++ ", " ++ ("[" ++ addr ++ "]") := by
  rw [show ", [" = ", " ++ "[" from rfl]
  simp only [String.append_assoc]

theorem storeLine_eq (acc addr : String) :
    "mov [" ++ addr ++ "], " ++ acc = "mov " ++ ("[" ++ addr ++ "]") ++ ", " ++ acc := by
  rw [show "mov [" = "mov " ++ "[" from rfl, show "], " = "]" ++ ", " from rfl]
  simp only [String.append_assoc]

/-- Settles O28: the meanings are one commit each, and the parameter chooses the accumulator's name. -/
theorem accumulatorFormsCommit : Obligations.AccumulatorFormsCommit := by
  refine ⟨rfl, rfl, fun w addr s acc hoff hon => ?_⟩
  obtain rfl := accName_eq hoff hon
  rw [loadLine_eq, storeLine_eq]
  exact ⟨rfl, rfl⟩

/-- Settles O29: the meanings raise UnhandledVariant, whose record names the byte at a cursor inside the stream. -/
theorem segmentFormsStopTheRun : Obligations.SegmentFormsStopTheRun := by
  intro s hlt
  exact ⟨congrArg Host.Outcome.next (raiseUnhandled_eq_stopped hlt .RegMemToSeg),
    congrArg Host.Outcome.next (raiseUnhandled_eq_stopped hlt .SegToRegMem)⟩

/-- Settles O30: both records have the same operands, and their d fields differ. -/
theorem twoEncodingsOfOneRegisterMove : Obligations.TwoEncodingsOfOneRegisterMove := by
  refine fun w a b s => ⟨_, _, rfl, rfl, rfl, rfl, ?_, rfl⟩
  simp

end Sys2Proof.Machine
end

section
/-! PROOFS. From the bytes of the stream: the accumulator forms (45_mov_acc.md), the corners they share with ImmToReg
(44_mov_imm_reg.md R113), the register names (41_operands.md R70), the direct address (R76), and the lengths of
committed instructions (30_encoding.md R48). -/

namespace Sys2Proof.Machine

/-! ## The accumulator forms (R120, R121) -/

theorem classify_of_memToAcc_pattern : ∀ op : Byte, op &&& 0xFE = 0xA0 → classify op = some .MemToAcc := by decide
theorem classify_of_accToMem_pattern : ∀ op : Byte, op &&& 0xFE = 0xA2 → classify op = some .AccToMem := by decide

/-- The record of an accumulator form whose address bytes are `lo` and `hi`: MemToAcc for the one pattern of the lead
byte, AccToMem for the other. -/
def accumulatorRecord (params : Config.Params) (start : Nat) (op lo hi : Byte) : Decoded :=
  let w := Pseudocode.bit op 0
  let acc := Operand.register (accName params w)
  let memOp := Operand.memory (.direct (lo.toNat + 256 * hi.toNat))
  if op &&& 0xFE = 0xA0 then
    { leadAt := start, len := 3, variant := .MemToAcc, fields := { w := some w }, dst := acc, src := memOp }
  else
    { leadAt := start, len := 3, variant := .AccToMem, fields := { w := some w }, dst := memOp, src := acc }

theorem accumulatorRecord_load {op : Byte} (h : op &&& 0xFE = 0xA0) (params : Config.Params) (start : Nat)
    (lo hi : Byte) : accumulatorRecord params start op lo hi =
      { leadAt := start, len := 3, variant := .MemToAcc, fields := { w := some (Pseudocode.bit op 0) }
        dst := .register (accName params (Pseudocode.bit op 0))
        src := .memory (.direct (lo.toNat + 256 * hi.toNat)) } := if_pos h

theorem accumulatorRecord_store {op : Byte} (h : op &&& 0xFE = 0xA2) (params : Config.Params) (start : Nat)
    (lo hi : Byte) : accumulatorRecord params start op lo hi =
      { leadAt := start, len := 3, variant := .AccToMem, fields := { w := some (Pseudocode.bit op 0) }
        dst := .memory (.direct (lo.toNat + 256 * hi.toNat))
        src := .register (accName params (Pseudocode.bit op 0)) } :=
  if_neg (by rw [h]; decide)

/-- One of the operands is the address. -/
theorem accumulatorRecord_operands (params : Config.Params) (start : Nat) (op lo hi : Byte) :
    (accumulatorRecord params start op lo hi).dst = .memory (.direct (lo.toNat + 256 * hi.toNat)) ∨
    (accumulatorRecord params start op lo hi).src = .memory (.direct (lo.toNat + 256 * hi.toNat)) := by
  unfold accumulatorRecord
  split
  · exact .inr rfl
  · exact .inl rfl

/-- With w=1 the accumulator is `ax`, whatever the parameter (R122). -/
theorem accName_word (params : Config.Params) : accName params true = .ax := by
  rw [accName]
  split <;> rfl

/-- The lines of the examples of R120 and R121, wherever the instruction stands. -/
theorem render_movAxFrom2555 (params : Config.Params) (start : Nat) :
    render (accumulatorRecord params start 0xA1 0xFB 0x09) = "mov ax, [2555]" := by
  rw [accumulatorRecord, show Pseudocode.bit 0xA1 0 = true from by decide, accName_word]
  rfl

theorem render_mov2554FromAx (params : Config.Params) (start : Nat) :
    render (accumulatorRecord params start 0xA3 0xFA 0x09) = "mov [2554], ax" := by
  rw [accumulatorRecord, show Pseudocode.bit 0xA3 0 = true from by decide, accName_word]
  rfl

/-- With w=0 the accumulator is still `ax` by default (D5). -/
theorem render_movAxFrom16 (start : Nat) :
    render (accumulatorRecord Config.Params.default start 0xA0 0x10 0) = "mov ax, [16]" := rfl

/-- An accumulator form is its two address bytes, the low one first (R120, R121, D3). -/
theorem decodeOne_accumulator {params : Config.Params} {read : ByteReader} {start : Nat} {op : Byte}
    (hop : read start = .ok op) (hc : op &&& 0xFE = 0xA0 ∨ op &&& 0xFE = 0xA2) :
    Pseudocode.decodeOne params read start =
      ((read (start + 1)).bind fun lo => (read (start + 2)).map fun hi =>
        (accumulatorRecord params start op lo hi, start + 3)).mapError .decode := by
  rcases hc with hc | hc
  · simp only [Pseudocode.decodeOne, hop, classify_of_memToAcc_pattern op hc, Pseudocode.decodeMA, bind]
    rcases read (start + 1) with e | lo
    · rfl
    · simp only [Except.bind]
      rcases read (start + 1 + 1) with e | hi
      · rfl
      · simp [Except.map, Except.mapError, pure, Except.pure, accumulatorRecord_load hc, u16le_eq_add]
  · simp only [Pseudocode.decodeOne, hop, classify_of_accToMem_pattern op hc, Pseudocode.decodeAM, bind]
    rcases read (start + 1) with e | lo
    · rfl
    · simp only [Except.bind]
      rcases read (start + 1 + 1) with e | hi
      · rfl
      · simp [Except.map, Except.mapError, pure, Except.pure, accumulatorRecord_store hc, u16le_eq_add]

section
variable {s : State} {op lo hi : Byte} {e : DecodeError} (hst : s.st = .scanning) (hop : s.streamRead s.cur = .ok op)
  (hc : op &&& 0xFE = 0xA0 ∨ op &&& 0xFE = 0xA2)
include hst hop hc

/-- The step raises what the read of the low address byte raises. -/
theorem step_accumulator_error_low (h : s.streamRead (s.cur + 1) = .error e) :
    step s = .next (Pseudocode.stopped s (.decode e)) := by
  refine step_of_decodeOne_error hst (streamRead_eq_ok.mp hop).1 ?_
  rw [decodeOne_accumulator hop hc, h]; rfl

/-- The step raises what the read of the high address byte raises. -/
theorem step_accumulator_error_high (hlo : s.streamRead (s.cur + 1) = .ok lo)
    (h : s.streamRead (s.cur + 2) = .error e) :
    step s = .next (Pseudocode.stopped s (.decode e)) := by
  refine step_of_decodeOne_error hst (streamRead_eq_ok.mp hop).1 ?_
  rw [decodeOne_accumulator hop hc, hlo, h]; rfl

/-- The step commits the record of the two address bytes. -/
theorem step_accumulator_ok (hlo : s.streamRead (s.cur + 1) = .ok lo) (hhi : s.streamRead (s.cur + 2) = .ok hi) :
    step s = .next (Pseudocode.committed s (accumulatorRecord s.params s.cur op lo hi) (s.cur + 3)) := by
  refine step_of_decodeOne_ok hst (streamRead_eq_ok.mp hop).1 ?_
  rw [decodeOne_accumulator hop hc, hlo, hhi]; rfl

end

/-- Settles O34: the step raises what a missing address byte's read raises, and otherwise commits; the examples have
w=1. -/
theorem accumulatorFormsFromBytes : Obligations.AccumulatorFormsFromBytes := by
  intro s op hst hop hc w acc
  refine ⟨fun n h => step_accumulator_error_low hst hop hc h,
    fun lo hlo => ⟨fun n h => step_accumulator_error_high hst hop hc hlo h, fun hi hhi => ?_⟩⟩
  have hs := step_accumulator_ok hst hop hc hlo hhi
  intro memOp
  refine ⟨fun hload => ?_, fun hstore => ?_, ?_, ?_⟩
  · rw [hs, accumulatorRecord_load hload]
  · rw [hs, accumulatorRecord_store hstore]
  · rintro rfl rfl rfl
    exact ⟨_, hs, congrArg (fun line => s.out ++ [line]) (render_movAxFrom2555 s.params s.cur)⟩
  · rintro rfl rfl rfl
    exact ⟨_, hs, congrArg (fun line => s.out ++ [line]) (render_mov2554FromAx s.params s.cur)⟩

/-- The corners of ImmToReg (R113): each of its data bytes may be missing. -/
theorem step_immToReg_truncated {s : State} {op : Byte} (hst : s.st = .scanning) (hop : s.streamRead s.cur = .ok op)
    (hc : op &&& 0xF0 = 0xB0) :
    (s.L ≤ s.cur + 1 → step s = .next (Pseudocode.stopped s (.decode (.truncated (s.cur + 1))))) ∧
    (Pseudocode.bit op 3 = true → s.cur + 2 = s.L →
      step s = .next (Pseudocode.stopped s (.decode (.truncated (s.cur + 2))))) := by
  refine ⟨fun hend => ?_, fun hw hend => ?_⟩
  · exact step_immToReg_of_readImmediate_error hst hop hc (readImmediate_error_first _ (streamRead_ge hend))
  · refine step_immToReg_of_readImmediate_error hst hop hc ?_
    rw [hw]
    exact readImmediate_error_second (streamRead_lt (by omega)) (streamRead_ge hend.ge)

/-- Settles O39: the first offset whose read raises is the one at or past the stream's end, and the address is the
accumulator record's. -/
theorem immToRegAndAccumulatorCorners : Obligations.ImmToRegAndAccumulatorCorners := by
  refine fun s op hst hop => ⟨step_immToReg_truncated hst hop, fun hc => ⟨fun hend => ?_, fun hend => ?_,
    fun lo hi hlo hhi => ⟨_, _, step_accumulator_ok hst hop hc hlo hhi, rfl, rfl, accumulatorRecord_operands _ _ _ _ _,
      ?_, ?_, ?_⟩⟩⟩
  · exact step_accumulator_error_low hst hop hc (streamRead_ge hend)
  · exact step_accumulator_error_high hst hop hc (streamRead_lt (by omega)) (streamRead_ge hend.ge)
  · rintro rfl rfl; decide
  · rintro rfl rfl; decide
  · rintro rfl hp rfl rfl
    rw [hp]
    exact congrArg (fun line => s.out ++ [line]) (render_movAxFrom16 s.cur)

/-! ## The register names (R70) -/

/-- The lead bytes of ImmToReg with w=0, and the register each selects. -/
theorem immToReg_byte_lead : ∀ i < 8, BitVec.ofNat 8 (0xB0 + i) &&& 0xF0 = 0xB0 ∧
    Pseudocode.bit (BitVec.ofNat 8 (0xB0 + i)) 3 = false ∧
    regText (regName (BitVec.ofNat 3 (Pseudocode.bits (BitVec.ofNat 8 (0xB0 + i)) 2 0)) false) =
      ["al", "cl", "dl", "bl", "ah", "ch", "dh", "bh"].getD i "" := by decide

/-- The lead bytes of ImmToReg with w=1, and the register each selects. -/
theorem immToReg_word_lead : ∀ i < 8, BitVec.ofNat 8 (0xB8 + i) &&& 0xF0 = 0xB0 ∧
    Pseudocode.bit (BitVec.ofNat 8 (0xB8 + i)) 3 = true ∧
    regText (regName (BitVec.ofNat 3 (Pseudocode.bits (BitVec.ofNat 8 (0xB8 + i)) 2 0)) true) =
      ["ax", "cx", "dx", "bx", "sp", "bp", "si", "di"].getD i "" := by decide

/-- The line of an ImmToReg: the register's name and the untagged immediate (R111). -/
theorem render_immToRegRecord (start : Nat) (op : Byte) (v : Int) (tag : WidthTag) (q : Nat) :
    render (immToRegRecord start op (.immediate v tag) q) =
      "mov " ++ regText (regName (BitVec.ofNat 3 (Pseudocode.bits op 2 0)) (Pseudocode.bit op 3)) ++ ", " ++ dec v :=
  rfl

/-- Settles O17: the step commits an ImmToReg, whose line names the register that the lead byte selects. -/
theorem registerNamesByIndexAndWidth : Obligations.RegisterNamesByIndexAndWidth := by
  intro s i lo hi hst hi8 hlo
  refine ⟨fun hop => ?_, fun hop hhi => ?_⟩
  · obtain ⟨hc, hw, hname⟩ := immToReg_byte_lead i hi8
    refine ⟨_, step_immToReg_of_readImmediate_ok hst hop hc (hw ▸ readImmediate_byte hlo), ?_⟩
    rw [Pseudocode.committed, render_immToRegRecord, hw, hname]
  · obtain ⟨hc, hw, hname⟩ := immToReg_word_lead i hi8
    refine ⟨_, step_immToReg_of_readImmediate_ok hst hop hc (hw ▸ readImmediate_word hlo hhi), ?_⟩
    rw [Pseudocode.committed, render_immToRegRecord, hw, hname]

/-! ## The direct address (R76) -/

theorem resolve_direct {read : ByteReader} {mod rm p : Nat} {w : Bool} {lo hi : Byte} (hmod : mod = 0) (hrm : rm = 6)
    (h0 : read p = .ok lo) (h1 : read (p + 1) = .ok hi) :
    Pseudocode.resolve read mod rm w p = .ok (.memory (.direct (lo.toNat + 256 * hi.toNat)), p + 2) := by
  subst hmod hrm
  simp [Pseudocode.resolve, h0, h1, u16le_eq_add, bind, Except.bind, pure, Except.pure]

/-- Settles O15: the record's r/m operand is what the resolver answers. -/
theorem directAddressIsUnsignedAndLittleEndian : Obligations.DirectAddressIsUnsignedAndLittleEndian := by
  intro s t r op m lo hi hop hc hm hmod hrm hlo hhi hstep hr data
  obtain ⟨i, -, rfl, hd⟩ := step_appends_record hstep hr
  obtain ⟨q, hres, hq⟩ := resolve_of_decodeOne hop hc hm hd
  obtain ⟨ho, rfl⟩ : r.rmOperand = .memory (.direct (lo.toNat + 256 * hi.toNat)) ∧ q = s.cur + 2 + 2 := by
    simpa using hres.symm.trans (resolve_direct hmod hrm hlo hhi)
  exact ⟨ho, hq, by rw [ho]; rfl⟩

/-! ## Lengths (R48) -/

/-- A committed record has the class of its lead byte, which is a decoded variant. -/
theorem class_of_commit {s : State} {r : Decoded} {q : Nat}
    (hd : Pseudocode.decodeOne s.params s.streamRead s.cur = .ok (r, q)) :
    ∃ i : Instr, classify (s.B.read s.cur) = some i.variant ∧ isSegmentForm i.variant = false ∧ r.len = i.length := by
  obtain ⟨i, hf, hx⟩ := fetch_of_pseudocode_decodeOne hd
  obtain ⟨-, hlen, -, hseg⟩ := record_of_exec hx
  exact ⟨i, classify_of_fetch hf, hseg, hlen⟩

/-- An accumulator form has three bytes, whatever w is. -/
theorem instr_length_of_accumulator {i : Instr} (h : i.variant = .MemToAcc ∨ i.variant = .AccToMem) : i.length = 3 := by
  cases i with
  | memToAcc | accToMem => rfl
  | regMemToFromReg | immToRegMem | immToReg | regMemToSeg | segToRegMem => simp [Instr.variant] at h

/-- The length of an ImmToReg that `DecodeOne` gives. -/
theorem offset_of_decodeOne_immToReg {params : Config.Params} {read : ByteReader} {start q : Nat} {op : Byte}
    {r : Decoded} (hop : read start = .ok op) (hc : op &&& 0xF0 = 0xB0)
    (h : Pseudocode.decodeOne params read start = .ok (r, q)) :
    q = start + 1 + if Pseudocode.bit op 3 then 2 else 1 := by
  rw [decodeOne_immToReg hop hc] at h
  rcases hi : Pseudocode.readImmediate read (Pseudocode.bit op 3) (start + 1) with e | ⟨v, q'⟩
  · simp [hi, Except.map, Except.mapError] at h
  · obtain ⟨-, rfl⟩ : _ ∧ q' = q := by simpa [hi, Except.map, Except.mapError] using h
    exact readImmediate_offset hi

/-- Settles O6: a committed record ends where its procedure stopped reading. -/
theorem committedLengthFromLeadAndModRmBytes : Obligations.CommittedLengthFromLeadAndModRmBytes := by
  intro s t r op hop hstep hr
  obtain ⟨-, -, rfl, hd⟩ := step_appends_record hstep hr
  obtain ⟨i, hclass, hseg, hlen⟩ := class_of_commit hd
  rw [(streamRead_eq_ok.mp hop).2] at hclass
  have variant : ∀ {v}, classify op = some v → i.variant = v := fun hv => by simpa [hclass] using hv
  refine ⟨rfl, fun hc m hm => ?_, fun hc m hm => ?_, fun hc => ?_, fun hc => ?_, fun hc => ?_, ?_, ?_⟩
  · obtain ⟨q, hres, hq⟩ := resolve_of_decodeOne hop (.inl hc) hm hd
    rw [resolve_offset hres, if_pos hc] at hq
    omega
  · obtain ⟨q, hres, hq⟩ := resolve_of_decodeOne hop (.inr hc) hm hd
    rw [resolve_offset hres, if_neg (not_regMemToFromReg_pattern op hc)] at hq
    omega
  · have hq := offset_of_decodeOne_immToReg hop hc hd
    omega
  · exact hlen.trans (instr_length_of_accumulator (.inl (variant (classify_of_memToAcc_pattern op hc))))
  · exact hlen.trans (instr_length_of_accumulator (.inr (variant (classify_of_accToMem_pattern op hc))))
  · rintro rfl
    rw [variant (show classify 0x8E = some .RegMemToSeg by decide)] at hseg
    exact nomatch hseg
  · rintro rfl
    rw [variant (show classify 0x8C = some .SegToRegMem by decide)] at hseg
    exact nomatch hseg

end Sys2Proof.Machine
end
